-- ==== Sys2Proof/Word.lean ====
section
/-! DEFINITION. The words that cross the ports of TWE-EMD (20_memory.md R53, R55): whole values, never split by an access. -/

namespace Sys2Proof

/-- A command word, a response word or a window ROM entry: 32 bits (R55, R70). -/
abbrev Word := BitVec 32

/-- An audio sample: 16 bits, read as two's complement (R8, R51). -/
abbrev Sample := BitVec 16

/-- A byte of a byte-wide link that carries words (R53). -/
abbrev Byte := BitVec 8

end Sys2Proof
end

