-- ==== Sys2Proof/Syntax.lean ====
section
/-! DEFINITION. What can be presented on the two ports of TWE-EMD: the commands of spec/opcode_table.json (30_encoding.md R70 to R79), the audio blocks that travel beside an audio word (20_memory.md R51), and the pseudo-commands of R84. -/

namespace Sys2Proof

/-- The two ports (R71). The audio agent drives the one, the control agent the other. -/
inductive Port where
  | control
  | audio
deriving DecidableEq, Repr

/-- The input blocks of a cycle (R12, R51). -/
inductive BlockName where
  | tone
  | inl
  | inr
deriving DecidableEq, Repr

/-- The operation a word selects, one for each row of the opcode map (R79). -/
inductive Op where
  | nop | setKey | setMute | denoiseUpdate | pollTick | mixCycle | readStatus | readChannel | reset
deriving DecidableEq, Repr

/-- The commands, one constructor for each row of spec/opcode_table.json.
Every operand is a plain unsigned field (R78), so each type holds exactly the encodable values. -/
inductive Instr where
  /-- NOP (R170). -/
  | nop
  /-- SET_KEY v (R109). -/
  | setKey (v : Bool)
  /-- SET_MUTE v (R110). -/
  | setMute (v : Bool)
  /-- DENOISE_UPDATE ch, raw (R144). -/
  | denoiseUpdate (ch : BitVec 4) (raw : BitVec 16)
  /-- POLL_TICK raw (R145). -/
  | pollTick (raw : BitVec 16)
  /-- MIX_CYCLE (R103): t, l, r say which of TONE, INL, INR are present this cycle (R75). -/
  | mixCycle (t l r : Bool)
  /-- READ_STATUS (R171). -/
  | readStatus
  /-- READ_CHANNEL ch (R172). -/
  | readChannel (ch : BitVec 4)
  /-- RESET (R173). -/
  | reset
deriving DecidableEq, Repr

/-- The row of the opcode map an instruction belongs to. -/
def Instr.op : Instr → Op
  | .nop => .nop
  | .setKey _ => .setKey
  | .setMute _ => .setMute
  | .denoiseUpdate _ _ => .denoiseUpdate
  | .pollTick _ => .pollTick
  | .mixCycle _ _ _ => .mixCycle
  | .readStatus => .readStatus
  | .readChannel _ => .readChannel
  | .reset => .reset

/-- The port that accepts an operation (R71, the port column of R79). -/
def Op.port : Op → Port
  | .mixCycle => .audio
  | .nop | .setKey | .setMute | .denoiseUpdate | .pollTick | .readStatus | .readChannel | .reset => .control

/-- The port that accepts an instruction (R71). -/
def Instr.port (i : Instr) : Port := i.op.port

/-- The blocks the host presents beside an audio word (R51, R75): `none` is a block not presented; sample 0 of a block comes first (D6). -/
structure Blocks where
  tone : Option (List Sample)
  inl : Option (List Sample)
  inr : Option (List Sample)
deriving DecidableEq, Repr

/-- No block at all. -/
def Blocks.none : Blocks := ⟨.none, .none, .none⟩

/-- The block of a name. -/
def Blocks.get (b : Blocks) : BlockName → Option (List Sample)
  | .tone => b.tone
  | .inl => b.inl
  | .inr => b.inr

/-- Is the block of this name presented? -/
def Blocks.has (b : Blocks) (n : BlockName) : Bool := (b.get n).isSome

/-- What the audio agent presents at once: a word and the blocks beside it (R75). -/
structure AudioCmd where
  word : Word
  blocks : Blocks
deriving DecidableEq, Repr

/-- Which blocks an instruction says are present (R75); only MIX_CYCLE names any. -/
def Instr.marks : Instr → BlockName → Bool
  | .mixCycle t _ _, .tone => t
  | .mixCycle _ l _, .inl => l
  | .mixCycle _ _ r, .inr => r
  | .nop, _ | .setKey _, _ | .setMute _, _ | .denoiseUpdate _ _, _ | .pollTick _, _ | .readStatus, _
  | .readChannel _, _ | .reset, _ => false

/-- The pseudo-commands of R84. -/
inductive Pseudo where
  | keyDown | keyUp | muteOn | muteOff | mix | mixNoTone
deriving DecidableEq, Repr

/-- The expansion of a pseudo-command (R84). -/
def Pseudo.expand : Pseudo → Instr
  | .keyDown => .setKey true
  | .keyUp => .setKey false
  | .muteOn => .setMute true
  | .muteOff => .setMute false
  | .mix => .mixCycle true true true
  | .mixNoTone => .mixCycle false true true

end Sys2Proof
end

