-- ==== Sys2Proof/Decode.lean ====
section
/-! DEFINITION. Decoding a command word (30_encoding.md R70 to R80), the encoder, and the opcode map as a table of match and mask (R79).

The decoder is written from the formats (R70 to R77: the op field, and the reserved bits that must be 0), the table is R79's own; that the
two say the same is a statement, not a definition. -/

namespace Sys2Proof

/-- Why a word, or a list of bytes, is no instruction. -/
inductive Reject where
  /-- R80: an op in 0x8..0xE. -/
  | reservedOp (op : BitVec 4)
  /-- R80: a defined op whose reserved bits are not all 0. -/
  | reservedBits (op : BitVec 4)
  /-- Fewer than four bytes on a byte-wide link: no whole word (R70, R82). -/
  | truncated
deriving DecidableEq, Repr

/-- op = CW[31:28] (R70). -/
def opField (w : Word) : BitVec 4 := w.extractLsb' 28 4

/-- ch = CW[27:24] (R73, R77, R78). -/
def chField (w : Word) : BitVec 4 := w.extractLsb' 24 4

/-- raw = CW[15:0] (R73, R74, R78). -/
def rawField (w : Word) : BitVec 16 := w.extractLsb' 0 16

/-- The instruction, if these reserved bits are all 0 (R80). -/
def ifZero {k : Nat} (w : Word) (reserved : BitVec k) (i : Instr) : Except Reject Instr :=
  if reserved = 0 then .ok i else .error (.reservedBits (opField w))

/-- The instruction of a word, by op (R70) and the format of that op (R72 to R77); a reserved encoding (R80) is rejected. -/
def decode (w : Word) : Except Reject Instr :=
  match (opField w).toNat with
  | 0x0 => ifZero w (w.extractLsb' 0 28) .nop
  | 0x1 => ifZero w (w.extractLsb' 1 27) (.setKey (w.getLsbD 0))
  | 0x2 => ifZero w (w.extractLsb' 1 27) (.setMute (w.getLsbD 0))
  | 0x3 => ifZero w (w.extractLsb' 16 8) (.denoiseUpdate (chField w) (rawField w))
  | 0x4 => ifZero w (w.extractLsb' 16 12) (.pollTick (rawField w))
  | 0x5 => ifZero w (w.extractLsb' 3 25) (.mixCycle (w.getLsbD 0) (w.getLsbD 1) (w.getLsbD 2))
  | 0x6 => ifZero w (w.extractLsb' 0 28) .readStatus
  | 0x7 => ifZero w (w.extractLsb' 0 24) (.readChannel (chField w))
  | 0xF => ifZero w (w.extractLsb' 0 28) .reset
  | _ => .error (.reservedOp (opField w))

/-- A field's value placed in a word with its lowest bit at `lo`. -/
def place {k : Nat} (v : BitVec k) (lo : Nat) : Word := v.setWidth 32 <<< lo

/-- The word of an instruction: the op and the fields of R72 to R77 at their places (the forms of R83). -/
def encode : Instr → Word
  | .nop => 0x00000000
  | .setKey v => 0x10000000 ||| place (BitVec.ofBool v) 0
  | .setMute v => 0x20000000 ||| place (BitVec.ofBool v) 0
  | .denoiseUpdate ch raw => 0x30000000 ||| place ch 24 ||| place raw 0
  | .pollTick raw => 0x40000000 ||| place raw 0
  | .mixCycle t l r => 0x50000000 ||| place (BitVec.ofBool t) 0 ||| place (BitVec.ofBool l) 1 ||| place (BitVec.ofBool r) 2
  | .readStatus => 0x60000000
  | .readChannel ch => 0x70000000 ||| place ch 24
  | .reset => 0xF0000000

/-- The rows of the opcode map (R79). -/
def Op.all : List Op :=
  [.nop, .setKey, .setMute, .denoiseUpdate, .pollTick, .mixCycle, .readStatus, .readChannel, .reset]

/-- The match column of R79. -/
def Op.matchWord : Op → Word
  | .nop => 0x00000000
  | .setKey => 0x10000000
  | .setMute => 0x20000000
  | .denoiseUpdate => 0x30000000
  | .pollTick => 0x40000000
  | .mixCycle => 0x50000000
  | .readStatus => 0x60000000
  | .readChannel => 0x70000000
  | .reset => 0xF0000000

/-- The mask column of R79. -/
def Op.mask : Op → Word
  | .nop => 0xFFFFFFFF
  | .setKey => 0xFFFFFFFE
  | .setMute => 0xFFFFFFFE
  | .denoiseUpdate => 0xF0FF0000
  | .pollTick => 0xFFFF0000
  | .mixCycle => 0xFFFFFFF8
  | .readStatus => 0xFFFFFFFF
  | .readChannel => 0xF0FFFFFF
  | .reset => 0xFFFFFFFF

/-- The word matches the row: `(CW & mask) == match` (R79). -/
def Op.matches (o : Op) (w : Word) : Bool := decide (w &&& o.mask = o.matchWord)

/-- A word on a byte-wide link, the least significant byte first (R53). -/
def wordBytes (w : Word) : List Byte :=
  [w.extractLsb' 0 8, w.extractLsb' 8 8, w.extractLsb' 16 8, w.extractLsb' 24 8]

/-- Decode the next command of a byte-wide link: always exactly four bytes (R82), the least significant first (R53). -/
def decodeBytes : List Byte → Except Reject (Instr × List Byte)
  | b0 :: b1 :: b2 :: b3 :: rest =>
    match decode (b3 ++ b2 ++ b1 ++ b0) with
    | .ok i => .ok (i, rest)
    | .error e => .error e
  | _ => .error .truncated

/-- The word an opcode-table row of `nbits` bits stands for: those bits, and 0 above them. -/
def tableWord (nbits w : Nat) : Word := BitVec.ofNat 32 (w % 2 ^ nbits)

/-- The instruction the decoder reads from the bits of an opcode-table row, laid out in bytes as on a link. -/
def decodeTableWord (nbits w : Nat) : Option Instr :=
  match decodeBytes (wordBytes (tableWord nbits w)) with
  | .ok (i, _) => some i
  | .error _ => none

end Sys2Proof
end

