-- ==== Sys2Proof/Config.lean ====
section
/-! DEFINITION. The construction-time parameters of a build (00_scope.md R6), the laws they obey (R7), the default build, and the free values. -/

namespace Sys2Proof

/-- The parameters of one denoiser channel (R6): EN, C, B and H. -/
structure Channel where
  /-- EN[ch]: the channel is enabled (its pin is not the sentinel; D43). -/
  en : Bool
  /-- C[ch]: number of buckets. -/
  c : Nat
  /-- B[ch]: bucket width. -/
  b : Nat
  /-- H[ch]: hysteresis margin. -/
  h : Nat
deriving DecidableEq, Repr

/-- The parameters of a build (R6). N, NCH and FMAX are computed from them. -/
structure Params where
  /-- L: samples per audio block. -/
  blockLen : Nat
  /-- WIN[0..N−1]: the window ROM (R50), read as signed 32-bit values. -/
  win : List Word
  /-- M, the parameter TRAIL_BLOCKS: trailing-mute length in blocks. -/
  trailBlocks : Nat
  /-- EN, C, B and H of the channels 0..NCH−1. -/
  chans : List Channel
  /-- EW: the weight of the moving average. -/
  ew : Nat
  /-- RAW_MAX: largest raw analog sample. -/
  rawMax : Nat
deriving DecidableEq, Repr

/-- N: the window table's length. -/
def Params.n (p : Params) : Nat := p.win.length

/-- NCH: the number of denoiser channels. -/
def Params.nch (p : Params) : Nat := p.chans.length

/-- FMAX = EW × RAW_MAX (R6, R146). -/
def Params.fmax (p : Params) : Nat := p.ew * p.rawMax

/-- R7 (a): the table never falls. -/
def rising : List Word → Bool
  | [] => true
  | [_] => true
  | a :: b :: ws => decide (a.toInt ≤ b.toInt) && rising (b :: ws)

/-- The legal values of C (R6) and law R7 (e), with FMAX given. -/
def Channel.lawful (fmax : Nat) (x : Channel) : Bool :=
  decide (2 ≤ x.c) && decide (x.c ≤ 32) && decide (fmax < x.b * x.c) && decide (x.b * (x.c - 1) ≤ fmax)

/-- The legal values of R6 and the laws of R7. "a build that violates one is not a TWE-EMD". -/
def Params.lawful (p : Params) : Bool :=
  decide (1 ≤ p.blockLen)
    && decide (1 ≤ p.n) && decide (p.n ≤ 4095)
    && rising p.win && p.win.all (fun w => decide (0 ≤ w.toInt)) && decide (p.win.head? = some 0)
    && decide (p.trailBlocks ≤ 65535)
    && decide (1 ≤ p.nch) && decide (p.nch ≤ 16) && p.chans.all (Channel.lawful p.fmax)
    && decide (2 ≤ p.ew) && decide (p.ew = 2 ^ p.ew.log2)
    && decide (1 ≤ p.rawMax) && decide (p.fmax ≤ 65535)

/-- A build: parameters that obey the laws. Parameters that break one cannot be made a build (U2 of 93_implementation_defined.md: `refuse`). -/
structure Build extends Params where
  lawful_eq : toParams.lawful = true
deriving DecidableEq, Repr

/-- A channel with the default bucket width ceil((FMAX+1)/C) and margin floor(B/2) (R6, D20, D21). -/
def Channel.standard (fmax c : Nat) : Channel :=
  let b := (fmax + 1 + (c - 1)) / c
  { en := true, c := c, b := b, h := b / 2 }

/-- The window table of G1 (93_implementation_defined.md section 3) at N = 128:
WIN[k] = round((2^31 − 1) × sin²(πk/256)).
PRESUMED (log 2): the spec takes it from general knowledge and gives no values of the real table. -/
def hannWindow : List Word :=
  [0x00000000, 0x0004EF3F, 0x0013BC39, 0x002C64A6, 0x004EE4B8, 0x007B371E, 0x00B15502, 0x00F1360B]
  ++ [0x013AD060, 0x018E18A7, 0x01EB0209, 0x02517E31, 0x02C17D52, 0x033AEE27, 0x03BDBDF6, 0x0449D892]
  ++ [0x04DF2862, 0x057D965D, 0x06250A17, 0x06D569BE, 0x078E9A1D, 0x08507EA7, 0x091AF976, 0x09EDEB50]
  ++ [0x0AC933AE, 0x0BACB0BF, 0x0C983F70, 0x0D8BBB6D, 0x0E86FF2A, 0x0F89E3E8, 0x109441BB, 0x11A5EF90]
  ++ [0x12BEC333, 0x13DE9156, 0x15052D97, 0x16326A88, 0x176619B6, 0x18A00BAE, 0x19E01006, 0x1B25F566]
  ++ [0x1C71898C, 0x1DC29958, 0x1F18F0CD, 0x20745B24, 0x21D4A2C8, 0x23399167, 0x24A2EFF6, 0x261086BC]
  ++ [0x27821D59, 0x28F77ACF, 0x2A70658A, 0x2BECA36C, 0x2D6BF9D1, 0x2EEE2D9D, 0x30730342, 0x31FA3ECA]
  ++ [0x3383A3E1, 0x350EF5DD, 0x369BF7C8, 0x382A6C6A, 0x39BA1651, 0x3B4AB7DB, 0x3CDC1341, 0x3E6DEAA0]
  ++ [0x40000000, 0x4192155F, 0x4323ECBE, 0x44B54824, 0x4645E9AE, 0x47D59395, 0x49640837, 0x4AF10A22]
  ++ [0x4C7C5C1E, 0x4E05C135, 0x4F8CFCBD, 0x5111D262, 0x5294062E, 0x54135C93, 0x558F9A75, 0x57088530]
  ++ [0x587DE2A6, 0x59EF7943, 0x5B5D1009, 0x5CC66E98, 0x5E2B5D37, 0x5F8BA4DB, 0x60E70F32, 0x623D66A7]
  ++ [0x638E7673, 0x64DA0A99, 0x661FEFF9, 0x675FF451, 0x6899E649, 0x69CD9577, 0x6AFAD268, 0x6C216EA9]
  ++ [0x6D413CCC, 0x6E5A106F, 0x6F6BBE44, 0x70761C17, 0x717900D5, 0x72744492, 0x7367C08F, 0x74534F40]
  ++ [0x7536CC51, 0x761214AF, 0x76E50689, 0x77AF8158, 0x787165E2, 0x792A9641, 0x79DAF5E8, 0x7A8269A2]
  ++ [0x7B20D79D, 0x7BB6276D, 0x7C424209, 0x7CC511D8, 0x7D3E82AD, 0x7DAE81CE, 0x7E14FDF6, 0x7E71E758]
  ++ [0x7EC52F9F, 0x7F0EC9F4, 0x7F4EAAFD, 0x7F84C8E1, 0x7FB11B47, 0x7FD39B59, 0x7FEC43C6, 0x7FFB10C0]

/-- The default parameters: L = 128, N = 128, EW = 16, RAW_MAX = 1023 and NCH = 3 are the spec's (R6).
DESIGN CHOICE (log 2): WIN, M, EN and C are OPEN in the spec; here the table of G1, M = 2, all channels enabled, C = 21. -/
def Params.standard : Params where
  blockLen := 128
  win := hannWindow
  trailBlocks := 2
  chans := List.replicate 3 (Channel.standard 16368 21)
  ew := 16
  rawMax := 1023

/-- The default build, the one State.reset is about. -/
def Build.standard : Build := { Params.standard with lawful_eq := by decide +kernel }

/-- Which port is served when both have a word waiting and nothing in State says which: a free value
(`true`: the audio port). U7 of 93_implementation_defined.md: `any value` over interleavings (log 4). -/
opaque Config.freeGrant : Nat → Bool

/-- What is read at an index of a block that is marked present but brings no sample there: a free value,
of the draw, the block and the index (log 6). -/
opaque Config.freeSample : Nat → BlockName → Nat → Sample

end Sys2Proof
end

