-- ==== Sys2Proof/Machine/State.lean ====
section
/-! DEFINITION. The state of TWE-EMD (10_state.md R20), the parameters of its build (00_scope.md R6), what stands at its two ports, and reset (70_reset_and_hazards.md R210). -/

namespace Sys2Proof.Machine

/-- How a command ends (00_scope.md R13, 60_exceptions.md R190). -/
inductive Reply where
  /-- The command returns this response word. -/
  | respond (w : Word)
  /-- The command completes with no response word. -/
  | done
  /-- The word is not executed (42_system.md R174). -/
  | ignore
  /-- MIX_CYCLE hands over the two output blocks. -/
  | emit (outL outR : List Sample)
  /-- MIX_CYCLE without its tone block: no output (40_mixer.md R103). -/
  | skip
deriving DecidableEq, Repr

/-- What the outside sees of one command: its port, its end, and the input blocks released, in order (20_memory.md R56). -/
structure Event where
  port : Port
  reply : Reply
  released : List BlockName
deriving DecidableEq, Repr

/-- Why the machine stops with a fault: never. "The block raises no synchronous exception" (60_exceptions.md R190), so there is no
constructor and no step can answer a fault (log 10). -/
inductive Fault
deriving DecidableEq, Repr

/-- Why the machine refuses an instruction. -/
inductive Refusal where
  /-- An instruction without a meaning, refused in exec's arm by its mnemonic. Safe. Every instruction has its meaning, so no arm raises it. -/
  | notModelled (mnemonic : String)
deriving DecidableEq, Repr

/-- The state. The seven registers are those of R20; `build` holds the parameters, which no command changes (R31, R212); the other fields
are what stands at the ports. -/
structure State where
  /-- The parameters of the build, with the proof that they obey R7 (log 1). -/
  build : Build
  /-- KEY (R21). -/
  key : Bool
  /-- MUTE (R22). -/
  mute : Bool
  /-- IDX, 12 bits (R23). -/
  idx : BitVec 12
  /-- MC, 16 bits (R24). -/
  mc : BitVec 16
  /-- F[0..NCH−1], 16 bits each (R25). -/
  f : List (BitVec 16)
  /-- LS[0..NCH−1], 5 bits each (R26). -/
  ls : List (BitVec 5)
  /-- RR, 4 bits (R27). -/
  rr : BitVec 4
  /-- The blocks presented with the audio word being executed; none between commands (R51, R56; log 6). -/
  lane : Blocks
  /-- Words waiting on the control port, oldest first (R29, R71; log 3). -/
  ctlIn : List Word
  /-- Words waiting on the audio port, with their blocks, oldest first (R51, R71; log 3). -/
  audIn : List AudioCmd
  /-- Which port is served next, each time both have a word waiting (R59; log 4). -/
  sched : List Port
  /-- How many commands have drawn their free values; the model's own counter (log 9). -/
  draws : Nat
  /-- The outcomes so far, oldest first (D42; log 5). -/
  out : List Event
deriving DecidableEq, Repr

/-- Power-on reset of a build (R210, R211): every register 0, no block held, nothing waiting, nothing answered yet. -/
def State.powerOn (b : Build) : State where
  build := b
  key := false
  mute := false
  idx := 0
  mc := 0
  f := List.replicate b.nch 0
  ls := List.replicate b.nch 0
  rr := 0
  lane := Blocks.none
  ctlIn := []
  audIn := []
  sched := []
  draws := 0
  out := []

/-- The default build right after reset (R210; log 2 for the build). -/
def State.reset : State := State.powerOn Build.standard

end Sys2Proof.Machine
end

