-- ==== Sys2Proof/WellFormed.lean ====
section
/-! DEFINITION. When a command is presented as the spec asks the host to present it.

Every term of Instr is encodable, because its operand types hold exactly the values of the fields (30_encoding.md R78); no check on an
instruction alone is left. What can be ill-formed is the way it is presented: the port (R71) and the host's duties of 70_reset_and_hazards.md
R214 and R215. The block checks none of the duties ("The block does not check any of these"): they are premises of a claim, never part of a
meaning. -/

namespace Sys2Proof

/-- All block names, in the order MIX_CYCLE releases them (R103). -/
def BlockName.all : List BlockName := [.tone, .inl, .inr]

/-- R71: the instruction stands on its own port. -/
def Instr.onPort (port : Port) (i : Instr) : Bool := decide (i.port = port)

/-- R75, R215: exactly the blocks the word marks are presented. -/
def Instr.marksMatch (blocks : Blocks) (i : Instr) : Bool :=
  BlockName.all.all fun n => i.marks n == blocks.has n

/-- R214: each block presented has exactly L samples. -/
def Blocks.fit (p : Params) (blocks : Blocks) : Bool :=
  BlockName.all.all fun n => match blocks.get n with
    | some xs => decide (xs.length = p.blockLen)
    | .none => true

/-- R215: a raw sample lies in 0..RAW_MAX. -/
def Instr.rawInRange (p : Params) : Instr → Bool
  | .denoiseUpdate _ raw => decide (raw.toNat ≤ p.rawMax)
  | .pollTick raw => decide (raw.toNat ≤ p.rawMax)
  | .nop | .setKey _ | .setMute _ | .mixCycle _ _ _ | .readStatus | .readChannel _ | .reset => true

/-- The instruction is presented on its port, with the blocks it marks, each of L samples, and a raw value in range. -/
def Instr.wellFormed (p : Params) (port : Port) (blocks : Blocks) (i : Instr) : Bool :=
  i.onPort port && i.marksMatch blocks && blocks.fit p && i.rawInRange p

end Sys2Proof
end

