-- ==== Sys2Proof/Machine/Ops.lean ====
section
/-! DEFINITION. The operations every meaning is written over: reading the window ROM and the blocks of a cycle, reading and writing the
registers of a channel, ending a command, and taking the next command from the ports.

Taking an exception and returning from one have no operation here: "there is no trap entry and no trap return: no state is saved, no mode
changes, no vector exists" (60_exceptions.md R194). -/

namespace Sys2Proof.Machine

/-- MemRead(WIN, k, 4) (R12, R50). Every read has k < N (R104); at other k, which no run reaches, 0 (log 8). -/
def winRead (p : Params) (k : Nat) : Word := p.win.getD k 0

/-- MemRead(B, i, 2) (R12, R51). A sample the host owes and did not bring is a free value (R214; log 6). -/
def State.sample (s : State) (n : BlockName) (i : Nat) : Sample :=
  ((s.lane.get n).getD []).getD i (Config.freeSample s.draws n i)

/-- The L samples of a block, i ascending (R14, R51). -/
def State.samples (s : State) (n : BlockName) : List Sample :=
  (List.range s.build.blockLen).map (s.sample n)

/-- F[ch] (R25). A channel that does not exist reads 0; no command reads one (log 8). -/
def State.fAt (s : State) (ch : BitVec 4) : BitVec 16 := s.f.getD ch.toNat 0

/-- LS[ch] (R26). A channel that does not exist reads 0; no command reads one (log 8). -/
def State.lsAt (s : State) (ch : BitVec 4) : BitVec 5 := s.ls.getD ch.toNat 0

/-- F[ch] <- v (R25). -/
def State.writeF (s : State) (ch : BitVec 4) (v : BitVec 16) : State := { s with f := s.f.set ch.toNat v }

/-- LS[ch] <- v (R26). -/
def State.writeLs (s : State) (ch : BitVec 4) (v : BitVec 5) : State := { s with ls := s.ls.set ch.toNat v }

/-- A command of the control port ends: its outcome is handed out (R13). -/
def State.finishControl (s : State) (r : Reply) : State :=
  { s with out := s.out ++ [⟨.control, r, []⟩], draws := s.draws + 1 }

/-- A command of the audio port ends: its outcome is handed out and the input blocks are released; the block "holds no reference to its
input blocks" afterwards (R13, R56). -/
def State.finishAudio (s : State) (r : Reply) (released : List BlockName) : State :=
  { s with lane := Blocks.none, out := s.out ++ [⟨.audio, r, released⟩], draws := s.draws + 1 }

/-- The names of the blocks presented, in the order of R103's releases. -/
def blockNames (b : Blocks) : List BlockName := BlockName.all.filter b.has

/-- The blocks a MIX_CYCLE releases, each once, in R103's order: those the word marks, and those presented unmarked (R56; log 7). -/
def releases (t l r : Bool) (b : Blocks) : List BlockName :=
  BlockName.all.filter fun n => (Instr.mixCycle t l r).marks n || b.has n

/-- A word is ignored (R174): no register changes, no response; blocks presented on the audio port are released unread. -/
def State.ignoreWord (s : State) : Port → State
  | .control => s.finishControl .ignore
  | .audio => s.finishAudio .ignore (blockNames s.lane)

/-- Take the oldest word of the control port. -/
def State.takeControl (s : State) (w : Word) (ws : List Word) : Port × Word × State :=
  (.control, w, { s with ctlIn := ws })

/-- Take the oldest word of the audio port; its blocks come onto the lane (R51, R75). -/
def State.takeAudio (s : State) (a : AudioCmd) (as : List AudioCmd) : Port × Word × State :=
  (.audio, a.word, { s with audIn := as, lane := a.blocks })

/-- The port to serve when both have a word waiting (R59): the next of `sched`, else a free value (log 4). -/
def State.granted (s : State) : Port :=
  match s.sched with
  | p :: _ => p
  | [] => if Config.freeGrant s.draws then .audio else .control

/-- The state with the grant of a served conflict used up. -/
def State.dropGrant (s : State) : State := { s with sched := s.sched.tail }

/-- The next command of the interleaving (R59), its port, and the state without it; none if no word waits. -/
def State.fetch (s : State) : Option (Port × Word × State) :=
  match s.ctlIn, s.audIn with
  | [], [] => none
  | w :: ws, [] => some (s.takeControl w ws)
  | [], a :: as => some (s.takeAudio a as)
  | w :: ws, a :: as =>
    match s.granted with
    | .control => some (s.dropGrant.takeControl w ws)
    | .audio => some (s.dropGrant.takeAudio a as)

end Sys2Proof.Machine
end

