-- ==== Sys2Proof/Machine/Operands.lean ====
section
/-! DEFINITION. The operands of a command against the build (30_encoding.md R78), and the response words (R81). -/

namespace Sys2Proof.Machine

/-- The parameters of channel ch, if the build has it: "a channel number ch ≥ NCH is a legal encoding that names no channel" (R78). -/
def State.channel? (s : State) (ch : BitVec 4) : Option Channel := s.build.chans[ch.toNat]?

/-- The channel, if the build has it and it is enabled (R144). -/
def State.enabled? (s : State) (ch : BitVec 4) : Option Channel := (s.channel? ch).filter Channel.en

/-- rc = min(raw, RAW_MAX) (R141). -/
def clampRaw (p : Params) (raw : BitVec 16) : Nat := min raw.toNat p.rawMax

/-- The denoiser response DR (R81): ch in 15:12, rep in 8, step in 4:0, and 0 elsewhere. -/
def drWord (ch : BitVec 4) (rep : Bool) (step : BitVec 5) : Word :=
  place ch 12 ||| place (BitVec.ofBool rep) 8 ||| place step 0

/-- The status word SR (R81): mc in 31:16, idx in 15:4, mute in 1, key in 0, and 0 elsewhere. -/
def srWord (mc : BitVec 16) (idx : BitVec 12) (mute key : Bool) : Word :=
  place mc 16 ||| place idx 4 ||| place (BitVec.ofBool mute) 1 ||| place (BitVec.ofBool key) 0

/-- The channel word CR (R81): ch in 31:28, en in 24, ls in 20:16, f in 15:0, and 0 elsewhere. -/
def crWord (ch : BitVec 4) (en : Bool) (ls : BitVec 5) (f : BitVec 16) : Word :=
  place ch 28 ||| place (BitVec.ofBool en) 24 ||| place ls 16 ||| place f 0

end Sys2Proof.Machine
end

