-- ==== Sys2Proof/Machine/Denoiser.lean ====
section
/-! DEFINITION. The Input Denoiser (41_denoiser.md): the filter, the quantizer, the report decision, DENOISE_UPDATE and POLL_TICK. -/

namespace Sys2Proof.Machine

/-- EMA(f, raw) = ((EW − 1) × f) / EW + rc (R141). -/
def ema (p : Params) (f : Nat) (raw : BitVec 16) : Nat := ((p.ew - 1) * f) / p.ew + clampRaw p raw

/-- Q(f) = min(f / B, C − 1) (R142). -/
def quantize (x : Channel) (f : Nat) : Nat := min (f / x.b) (x.c - 1)

/-- mid(k) = k × B + floor(B / 2) (R140). -/
def mid (x : Channel) (k : Nat) : Nat := k * x.b + x.b / 2

/-- f lies in the hysteresis band of step k: abs(f − mid(k)) ≤ H (R140). -/
def inBand (x : Channel) (k f : Nat) : Bool := decide (((f : Int) - (mid x k : Int)).natAbs ≤ x.h)

/-- Is a new step reported: abs(f − mid(LS)) > H and Q(f) ≠ LS (R143)? -/
def reports (x : Channel) (ls f : Nat) : Bool := !inBand x ls f && decide (quantize x f ≠ ls)

/-- The filter update of an enabled channel: F[ch] <- EMA(F[ch], raw). -/
def State.filterChannel (s : State) (ch : BitVec 4) (raw : BitVec 16) : State :=
  s.writeF ch (BitVec.ofNat 16 (ema s.build.toParams (s.fAt ch).toNat raw))

/-- The report of an enabled channel whose filter has been updated: LS[ch] <- Q(F[ch]) and the response, or "no change". -/
def State.reportChannel (s : State) (x : Channel) (ch : BitVec 4) : State :=
  if reports x (s.lsAt ch).toNat (s.fAt ch).toNat then
    let q := BitVec.ofNat 5 (quantize x (s.fAt ch).toNat)
    (s.writeLs ch q).finishControl (.respond (drWord ch true q))
  else
    s.finishControl (.respond (drWord ch false 0))

/-- The body of DENOISE_UPDATE(ch, raw) (R144): an absent or disabled channel answers "no change" before the raw value is looked at (R193). -/
def State.updateChannel (s : State) (ch : BitVec 4) (raw : BitVec 16) : State :=
  match s.enabled? ch with
  | none => s.finishControl (.respond (drWord ch false 0))
  | some x => (s.filterChannel ch raw).reportChannel x ch

/-- DENOISE_UPDATE (R144). -/
def execDenoiseUpdate (ch : BitVec 4) (raw : BitVec 16) (s : State) : Host.Outcome State Fault Refusal :=
  .next (s.updateChannel ch raw)

/-- (RR + 1) mod NCH (R145). -/
def State.nextRr (s : State) : BitVec 4 := BitVec.ofNat 4 ((s.rr.toNat + 1) % s.build.nch)

/-- POLL_TICK (R145): RR steps round, and the channel it named is updated. -/
def execPollTick (raw : BitVec 16) (s : State) : Host.Outcome State Fault Refusal :=
  .next ({ s with rr := s.nextRr }.updateChannel s.rr raw)

end Sys2Proof.Machine
end

