-- ==== Sys2Proof/Machine/Flags.lean ====
section
/-! DEFINITION. What a cycle does with the flags KEY and MUTE, the only flags there are (10_state.md R30): the pass-through gate with its
counter MC (40_mixer.md R103) and the choice between the tone path and the pass-through path. No command sets a flag as a side effect. -/

namespace Sys2Proof.Machine

/-- The pass-through gate: is pass-through silenced this cycle (pm), and the new MC, from the snapshot m, MC and M (R103, D11). -/
def gate (m : Bool) (mc : BitVec 16) (trail : Nat) : Bool × BitVec 16 :=
  if m then (true, BitVec.ofNat 16 trail)
  else if 0 < mc.toNat then (true, mc - 1)
  else (false, mc)

/-- Does an executed cycle that starts here silence pass-through? -/
def State.gated (s : State) : Bool := (gate s.mute s.mc s.build.trailBlocks).1

/-- MC after an executed cycle that starts here. -/
def State.nextMc (s : State) : BitVec 16 := (gate s.mute s.mc s.build.trailBlocks).2

/-- Is an executed cycle that starts here a TX block: "k = 1 or IDX > 0" (R103, D10)? -/
def State.isTx (s : State) : Bool := s.key || decide (0 < s.idx.toNat)

end Sys2Proof.Machine
end

