-- ==== Sys2Proof/Machine/Mixer.lean ====
section
/-! DEFINITION. The Tone Envelope Mixer (40_mixer.md): GAIN, ENV, MIX_CYCLE, SET_KEY and SET_MUTE. -/

namespace Sys2Proof.Machine

/-- GAIN(s, w) = ((s << 1) × w) >> 32, exact and floored (R100); the quotient is a 16-bit value (R101). -/
def gain (s : Sample) (w : Word) : Sample :=
  BitVec.ofInt 16 (((s.toInt * 2) * w.toInt) / 2 ^ 32)

/-- ENV(k, idx, s) of R102: the output sample and the new index. -/
def env (p : Params) (k : Bool) (idx : Nat) (s : Sample) : Sample × Nat :=
  if k then
    if idx < p.n then (gain s (winRead p idx), idx + 1) else (s, p.n)
  else
    if 0 < idx then (gain s (winRead p (idx - 1)), idx - 1) else (0, 0)

/-- ENV over the samples of a tone block in turn: the output block and the index after it (the loop of R103's tone path). -/
def envBlock (p : Params) (k : Bool) : Nat → List Sample → List Sample × Nat
  | idx, [] => ([], idx)
  | idx, s :: ss =>
    let (y, idx') := env p k idx s
    let (ys, idx'') := envBlock p k idx' ss
    (y :: ys, idx'')

/-- The tone path of R103: what goes to both outputs, and the index after the block. -/
def State.toneOut (s : State) : List Sample × Nat :=
  envBlock s.build.toParams s.key s.idx.toNat (s.samples .tone)

/-- One channel of the pass-through path of R103: the input block if it is present and the gate is open, else silence. -/
def State.passOut (s : State) (present : Bool) (n : BlockName) : List Sample :=
  if present && !s.gated then s.samples n else List.replicate s.build.blockLen 0

/-- MIX_CYCLE (R103). Without the tone block the cycle is skipped, before any snapshot (R193). -/
def execMixCycle (t l r : Bool) (s : State) : Host.Outcome State Fault Refusal :=
  let released := releases t l r s.lane
  if t then
    if s.isTx then
      let (ys, idx') := s.toneOut
      .next ({ s with mc := s.nextMc, idx := BitVec.ofNat 12 idx' }.finishAudio (.emit ys ys) released)
    else
      let a := s.passOut l .inl
      let b := s.passOut r .inr
      .next ({ s with mc := s.nextMc, idx := 0 }.finishAudio (.emit a b) released)
  else
    .next (s.finishAudio .skip released)

/-- SET_KEY (R109): KEY <- v; done. -/
def execSetKey (v : Bool) (s : State) : Host.Outcome State Fault Refusal :=
  .next ({ s with key := v }.finishControl .done)

/-- SET_MUTE (R110): MUTE <- v; done. MC is not written here. -/
def execSetMute (v : Bool) (s : State) : Host.Outcome State Fault Refusal :=
  .next ({ s with mute := v }.finishControl .done)

end Sys2Proof.Machine
end

