-- ==== Sys2Proof/Machine/System.lean ====
section
/-! DEFINITION. The system commands (42_system.md): NOP, READ_STATUS, READ_CHANNEL and RESET. -/

namespace Sys2Proof.Machine

/-- NOP (R170): done. -/
def execNop (s : State) : Host.Outcome State Fault Refusal :=
  .next (s.finishControl .done)

/-- READ_STATUS (R171): the status word; no side effect. -/
def execReadStatus (s : State) : Host.Outcome State Fault Refusal :=
  .next (s.finishControl (.respond (srWord s.mc s.idx s.mute s.key)))

/-- The channel word of READ_CHANNEL (R172): all-zero fields but ch for a channel the build has not. -/
def State.channelWord (s : State) (ch : BitVec 4) : Word :=
  match s.channel? ch with
  | none => crWord ch false 0 0
  | some x => crWord ch x.en (s.lsAt ch) (s.fAt ch)

/-- READ_CHANNEL (R172): the channel word; no side effect. -/
def execReadChannel (ch : BitVec 4) (s : State) : Host.Outcome State Fault Refusal :=
  .next (s.finishControl (.respond (s.channelWord ch)))

/-- Every register of R20 takes its reset value (R173, R210); the build and what stands at the ports stay (R212). -/
def State.clearRegisters (s : State) : State :=
  { s with
    key := false, mute := false, idx := 0, mc := 0
    f := List.replicate s.build.nch 0, ls := List.replicate s.build.nch 0, rr := 0 }

/-- RESET (R173): soft reset; done. -/
def execReset (s : State) : Host.Outcome State Fault Refusal :=
  .next (s.clearRegisters.finishControl .done)

end Sys2Proof.Machine
end

