-- ==== Sys2Proof/Machine/Dispatch.lean ====
section
/-! DEFINITION. One arm for each instruction, in the order of spec/opcode_table.json. -/

namespace Sys2Proof.Machine

def exec (i : Instr) (s : State) : Host.Outcome State Fault Refusal :=
  match i with
  | .nop => Sys2Proof.Machine.execNop s
  | .setKey v => Sys2Proof.Machine.execSetKey v s
  | .setMute v => Sys2Proof.Machine.execSetMute v s
  | .denoiseUpdate ch raw => Sys2Proof.Machine.execDenoiseUpdate ch raw s
  | .pollTick raw => Sys2Proof.Machine.execPollTick raw s
  | .mixCycle t l r => Sys2Proof.Machine.execMixCycle t l r s
  | .readStatus => Sys2Proof.Machine.execReadStatus s
  | .readChannel ch => Sys2Proof.Machine.execReadChannel ch s
  | .reset => Sys2Proof.Machine.execReset s

end Sys2Proof.Machine
end

