-- ==== Sys2Proof/Machine/Loading.lean ====
section
/-! DEFINITION. Placing a command where the next step takes it from (log 3): what the outside of the block does. -/

namespace Sys2Proof.Machine

/-- The port a word is presented on: MIX_CYCLE's op on the audio port, every other on the control port (R71). -/
def portOfWord (w : Word) : Port := if opField w = 0x5#4 then .audio else .control

/-- A block of L zero samples if the bit is set. -/
def quietBlock (p : Params) (present : Bool) : Option (List Sample) :=
  if present then some (List.replicate p.blockLen 0) else none

/-- The blocks an audio word marks (R75), each of L zero samples (log 3). -/
def quietBlocks (p : Params) (w : Word) : Blocks where
  tone := quietBlock p (w.getLsbD 0)
  inl := quietBlock p (w.getLsbD 1)
  inr := quietBlock p (w.getLsbD 2)

/-- The state in which the word waits first on its port and its port is served next. -/
def State.present (s : State) (w : Word) : State :=
  match portOfWord w with
  | .control =>
    { s with ctlIn := w :: s.ctlIn, sched := if s.audIn.isEmpty then s.sched else .control :: s.sched }
  | .audio =>
    { s with
      audIn := ⟨w, quietBlocks s.build.toParams w⟩ :: s.audIn
      sched := if s.ctlIn.isEmpty then s.sched else .audio :: s.sched }

end Sys2Proof.Machine
end

