-- ==== Sys2Proof/Machine/Step.lean ====
section
/-! DEFINITION. One step: the next command of the interleaving runs to its end (00_scope.md R14, 20_memory.md R59). -/

namespace Sys2Proof.Machine

/-- With no word waiting the block waits (R57, R200). A reserved encoding is ignored before anything else, then a defined word on the wrong
port (R174, R193); any other word runs its instruction. -/
def step (s : State) : Host.Outcome State Fault Refusal :=
  match s.fetch with
  | none => .next s
  | some (p, w, s') =>
    match decode w with
    | .error _ => .next (s'.ignoreWord p)
    | .ok i => if i.port = p then exec i s' else .next (s'.ignoreWord p)

/-- The state in which the next step runs the instruction whose bits are w (bits from nbits up are 0). -/
def State.withFetchWord (s : State) (nbits w : Nat) : State := s.present (tableWord nbits w)

end Sys2Proof.Machine
end

