-- ==== Sys2Proof/Machine/Assembler.lean ====
section
/-! DEFINITION. Assembler text (30_encoding.md R83) and the pseudo-commands in it (R84): one line to the command it stands for.

What R83 leaves open (spaces, letter case, a missing prefix, the order of a set) is fixed in log 14. The text is no part of the machine: no
step reads it. -/

namespace Sys2Proof.Machine

/-- A line is read as a list of characters. -/
abbrev Text := List Char

def isBlank (c : Char) : Bool := c == ' ' || c == '\t'

/-- The text without blanks at either end. -/
def trim (t : Text) : Text := ((t.dropWhile isBlank).reverse.dropWhile isBlank).reverse

/-- The text before the comment (R83: `;` starts a comment). -/
def dropComment (t : Text) : Text := t.takeWhile (· != ';')

/-- Cut a text at each separator, in order. -/
def cut (sep : Char) : Text → List Text
  | [] => [[]]
  | c :: cs =>
    match cut sep cs with
    | [] => [[c]]
    | piece :: pieces => if c == sep then [] :: piece :: pieces else (c :: piece) :: pieces

/-- The value of a decimal digit. -/
def decDigit (c : Char) : Option Nat :=
  if '0' ≤ c ∧ c ≤ '9' then some (c.toNat - '0'.toNat) else none

/-- The value of a hexadecimal digit, in either case. -/
def hexDigit (c : Char) : Option Nat :=
  if 'a' ≤ c ∧ c ≤ 'f' then some (c.toNat - 'a'.toNat + 10)
  else if 'A' ≤ c ∧ c ≤ 'F' then some (c.toNat - 'A'.toNat + 10)
  else decDigit c

/-- The number with these digits after the value so far. -/
def digits (base : Nat) (digit : Char → Option Nat) : Nat → Text → Option Nat
  | acc, [] => some acc
  | acc, c :: cs =>
    match digit c with
    | none => none
    | some d => digits base digit (acc * base + d) cs

/-- A number in decimal or `0x` hexadecimal (R83). -/
def number : Text → Option Nat
  | [] => none
  | '0' :: 'x' :: c :: cs => digits 16 hexDigit 0 (c :: cs)
  | c :: cs => digits 10 decDigit 0 (c :: cs)

/-- A number below a limit. -/
def numberBelow (limit : Nat) (t : Text) : Option Nat := (number t).filter (· < limit)

/-- v of SET_KEY and SET_MUTE: 0 or 1 (R83). -/
def flagOperand (t : Text) : Option Bool := (numberBelow 2 t).map (· == 1)

/-- ch: 0..15 (R83). -/
def chOperand (t : Text) : Option (BitVec 4) := (numberBelow 16 t).map (BitVec.ofNat 4)

/-- raw: 0..65535 (R83). -/
def rawOperand (t : Text) : Option (BitVec 16) := (numberBelow 65536 t).map (BitVec.ofNat 16)

/-- One letter of a set, added to the bits t, l, r so far; a letter twice is no subset. -/
def addLetter : Option (Bool × Bool × Bool) → Text → Option (Bool × Bool × Bool)
  | some (false, l, r), ['T'] => some (true, l, r)
  | some (t, false, r), ['L'] => some (t, true, r)
  | some (t, l, false), ['R'] => some (t, l, true)
  | _, _ => none

/-- The set of MIX_CYCLE: a `|`-separated subset of T, L, R, or `-` for none (R83). -/
def setOperand (t : Text) : Option Instr :=
  let bits := if t == ['-'] then some (false, false, false)
    else ((cut '|' t).map trim).foldl addLetter (some (false, false, false))
  bits.map fun b => .mixCycle b.1 b.2.1 b.2.2

/-- The pseudo-command of a name (R84). -/
def pseudoOf (name : Text) : Option Pseudo :=
  if name = "KEY_DOWN".toList then some .keyDown
  else if name = "KEY_UP".toList then some .keyUp
  else if name = "MUTE_ON".toList then some .muteOn
  else if name = "MUTE_OFF".toList then some .muteOff
  else if name = "MIX".toList then some .mix
  else if name = "MIX_NOTONE".toList then some .mixNoTone
  else none

/-- The command of a mnemonic and its operands: the operand forms of R83. -/
def assembleOp (name : Text) (operands : List Text) : Option Instr :=
  match operands with
  | [] =>
    if name = "NOP".toList then some .nop
    else if name = "READ_STATUS".toList then some .readStatus
    else if name = "RESET".toList then some .reset
    else (pseudoOf name).map Pseudo.expand
  | [a] =>
    if name = "SET_KEY".toList then (flagOperand a).map .setKey
    else if name = "SET_MUTE".toList then (flagOperand a).map .setMute
    else if name = "POLL_TICK".toList then (rawOperand a).map .pollTick
    else if name = "READ_CHANNEL".toList then (chOperand a).map .readChannel
    else if name = "MIX_CYCLE".toList then setOperand a
    else none
  | [a, b] =>
    if name = "DENOISE_UPDATE".toList then
      (chOperand a).bind fun ch => (rawOperand b).map fun raw => .denoiseUpdate ch raw
    else none
  | _ => none

/-- The text after a port prefix (`audio:`, `ctl:`), and the port it names; without a prefix, none. -/
def portPrefix (t : Text) : Option Port × Text :=
  if "audio:".toList.isPrefixOf t then (some .audio, t.drop 6)
  else if "ctl:".toList.isPrefixOf t then (some .control, t.drop 4)
  else (none, t)

/-- One line of assembler text: the port its prefix names, and its command (R83, R84). -/
def assembleLine (line : Text) : Option (Option Port × Instr) :=
  let (port, body) := portPrefix (trim (dropComment line))
  let body := trim body
  let name := body.takeWhile (fun c => !isBlank c)
  let rest := trim (body.drop name.length)
  let operands := if rest.isEmpty then [] else (cut ',' rest).map trim
  (assembleOp name operands).map fun i => (port, i)

end Sys2Proof.Machine
end

