-- ==== Sys2Proof/Safety.lean ====
section
/-! DEFINITION. The terms the claims are stated in: the ranges of the registers, the invariant of a run, the coefficients of the envelope,
and sequences of commands.

A safe run is one in which every register stays in the range the spec gives it (`State.RegsOk`) and no input block is held between two
commands (`State.Inv`). No run can fault: Fault has no constructor. -/

namespace Sys2Proof.Machine

/-- What channel ch holds lies in the ranges of 10_state.md R25 and R26, and a disabled channel still holds its reset values (R172). -/
def State.ChannelOk (s : State) (ch : BitVec 4) (x : Channel) : Prop :=
  (s.fAt ch).toNat ≤ s.build.fmax ∧ (s.lsAt ch).toNat < x.c ∧ (x.en = false → s.fAt ch = 0 ∧ s.lsAt ch = 0)

/-- Every register is in the range its rule gives it. -/
structure State.RegsOk (s : State) : Prop where
  /-- IDX is in 0..N (R23, R104). -/
  idx_le : s.idx.toNat ≤ s.build.n
  /-- MC is in 0..M (R24). -/
  mc_le : s.mc.toNat ≤ s.build.trailBlocks
  /-- There is one F for each channel (R25). -/
  f_length : s.f.length = s.build.nch
  /-- There is one LS for each channel (R26). -/
  ls_length : s.ls.length = s.build.nch
  /-- F[ch] is in 0..FMAX and LS[ch] in 0..C[ch]−1 (R25, R26, R146). -/
  channels : ∀ ch x, s.channel? ch = some x → s.ChannelOk ch x
  /-- RR is in 0..NCH−1 (R27). -/
  rr_lt : s.rr.toNat < s.build.nch

/-- The invariant between two commands: the registers are in range and no input block is held (R56). -/
structure State.Inv (s : State) : Prop extends s.RegsOk where
  lane_empty : s.lane = Blocks.none

/-- Two states hold the same build and registers (R20). -/
def State.SameRegs (s t : State) : Prop :=
  t.build = s.build ∧ t.key = s.key ∧ t.mute = s.mute ∧ t.idx = s.idx ∧ t.mc = s.mc ∧ t.f = s.f ∧ t.ls = s.ls ∧ t.rr = s.rr

/-- Two states have the same words waiting at the ports. -/
def State.SameQueues (s t : State) : Prop := t.ctlIn = s.ctlIn ∧ t.audIn = s.audIn ∧ t.sched = s.sched

/-- Two states agree on what the mixer may depend on. -/
def State.SameMixer (s t : State) : Prop :=
  t.build = s.build ∧ t.key = s.key ∧ t.mute = s.mute ∧ t.idx = s.idx ∧ t.mc = s.mc

/-- Two states agree on what the denoiser may depend on. -/
def State.SameDenoiser (s t : State) : Prop := t.build = s.build ∧ t.f = s.f ∧ t.ls = s.ls ∧ t.rr = s.rr

/-- The fixed-point gain applied to sample i of a TX block that starts here, 2^31 for unity and 0 for silence (R105). -/
def State.coeff (s : State) (i : Nat) : Int :=
  if s.key then
    if s.idx.toNat + i < s.build.n then (winRead s.build.toParams (s.idx.toNat + i)).toInt else 2 ^ 31
  else
    if i < s.idx.toNat then (winRead s.build.toParams (s.idx.toNat - 1 - i)).toInt else 0

/-- One cycle as the two agents bring it about: KEY as the control agent has left it, and the audio word's bits and blocks. -/
structure Cycle where
  key : Bool
  t : Bool
  l : Bool
  r : Bool
  blocks : Blocks
deriving DecidableEq, Repr

/-- The state in which the cycle's MIX_CYCLE runs. -/
def Cycle.enter (c : Cycle) (s : State) : State := { s with key := c.key, lane := c.blocks }

/-- The state an outcome leaves; a machine that stops stays where it was. -/
def stateAfter (s : State) : Host.Outcome State Fault Refusal → State
  | .next t => t
  | .fault _ => s
  | .refused _ => s

/-- The state after a cycle. -/
def Cycle.run (c : Cycle) (s : State) : State := stateAfter s (exec (.mixCycle c.t c.l c.r) (c.enter s))

/-- The state after a sequence of cycles, with no write to MUTE among them. -/
def runCycles : State → List Cycle → State
  | s, [] => s
  | s, c :: cs => runCycles (c.run s) cs

/-- For each executed cycle of a sequence, in order: was pass-through silenced (pm of R103)? -/
def gatedCycles : State → List Cycle → List Bool
  | _, [] => []
  | s, c :: cs => if c.t then (c.enter s).gated :: gatedCycles (c.run s) cs else gatedCycles (c.run s) cs

/-- How many cycles of a sequence are executed, that is, not skipped. -/
def executed (cs : List Cycle) : Nat := (cs.filter Cycle.t).length

/-- The state after updating one channel with a sequence of raw values. -/
def runUpdates (ch : BitVec 4) : State → List (BitVec 16) → State
  | s, [] => s
  | s, raw :: raws => runUpdates ch (stateAfter s (exec (.denoiseUpdate ch raw) s)) raws

/-- The filtered values of one channel after each update of a sequence. -/
def filteredRun (ch : BitVec 4) : State → List (BitVec 16) → List Nat
  | _, [] => []
  | s, raw :: raws =>
    let t := stateAfter s (exec (.denoiseUpdate ch raw) s)
    (t.fAt ch).toNat :: filteredRun ch t raws

/-- The steps one channel reports over a sequence of updates: LS after each update that changes it. -/
def reportedRun (ch : BitVec 4) : State → List (BitVec 16) → List Nat
  | _, [] => []
  | s, raw :: raws =>
    let t := stateAfter s (exec (.denoiseUpdate ch raw) s)
    if t.lsAt ch = s.lsAt ch then reportedRun ch t raws else (t.lsAt ch).toNat :: reportedRun ch t raws

/-- The state after a sequence of POLL_TICKs. -/
def runPolls : State → List (BitVec 16) → State
  | s, [] => s
  | s, raw :: raws => runPolls (stateAfter s (exec (.pollTick raw) s)) raws

/-- The filtered value after n updates with the same raw value (R147). -/
def emaIter (p : Params) (raw : BitVec 16) : Nat → Nat → Nat
  | 0, f => f
  | n + 1, f => emaIter p raw n (ema p f raw)

/-- ceil(f / EW) (R147). -/
def ceilEw (p : Params) (f : Nat) : Nat := (f + (p.ew - 1)) / p.ew

end Sys2Proof.Machine
end

