-- ==== Sys2Proof/Certificates/Slice0/Obligations.lean ====
section
/-! DEFINITION. The statements for the provers. Each docstring says which rule of spec/ it formalises. A statement about every state is a
statement about every lawful build (00_scope.md R6, R7), every content of the ports and every interleaving of them. -/

open Sys2Proof Sys2Proof.Machine

/-! ## Encoding (30_encoding.md) -/

/-- Words written out from the formats R72 to R77 and the forms of R83 decode to what they stand for. -/
def Obligations.HandWrittenWordsDecode : Prop :=
  decode 0b0000_0000_0000_0000_0000_0000_0000_0000#32 = .ok .nop ∧
  decode 0b0001_0000_0000_0000_0000_0000_0000_0001#32 = .ok (.setKey true) ∧
  decode 0b0010_0000_0000_0000_0000_0000_0000_0000#32 = .ok (.setMute false) ∧
  decode 0b0011_0010_0000_0000_0000_0011_1111_1111#32 = .ok (.denoiseUpdate 2 1023) ∧
  decode 0b0101_0000_0000_0000_0000_0000_0000_0110#32 = .ok (.mixCycle false true true) ∧
  decode 0b0111_0101_0000_0000_0000_0000_0000_0000#32 = .ok (.readChannel 5) ∧
  decode 0b1111_0000_0000_0000_0000_0000_0000_0000#32 = .ok .reset

/-- No bit of an instruction is lost by encoding it (R72 to R78). -/
def Obligations.DecodeOfEncode : Prop := ∀ i : Instr, decode (encode i) = .ok i

/-- Each instruction has one word: every defined word is the encoding of what it decodes to (R72 to R78). -/
def Obligations.EncodeOfDecode : Prop := ∀ (w : Word) (i : Instr), decode w = .ok i → encode i = w

/-- R79: a word decodes to the row whose `(CW & mask) == match`, at most one row matches any word, and a word that matches no row is a
reserved encoding. -/
def Obligations.DecodeAgreesWithOpcodeMap : Prop :=
  ∀ w : Word,
    (∀ o : Op, w &&& o.mask = o.matchWord ↔ ∃ i, decode w = .ok i ∧ i.op = o) ∧
    (∀ o o' : Op, w &&& o.mask = o.matchWord → w &&& o'.mask = o'.matchWord → o = o') ∧
    ((∀ o : Op, w &&& o.mask ≠ o.matchWord) → ∃ e, decode w = .error e)

/-- R80: the reserved encodings are the words with op 0x8..0xE and the words of a defined op whose reserved bits are not all 0; each is
ignored on either port: the machine goes on, no register changes and no response is returned. -/
def Obligations.ReservedEncodingsAreIgnored : Prop :=
  ∀ w : Word,
    let op := (w.extractLsb' 28 4).toNat
    ((∃ e, decode w = .error e) ↔
      (8 ≤ op ∧ op ≤ 14) ∨
      ((op = 0 ∨ op = 6 ∨ op = 15) ∧ w.extractLsb' 0 28 ≠ 0) ∨
      ((op = 1 ∨ op = 2) ∧ w.extractLsb' 1 27 ≠ 0) ∨
      (op = 3 ∧ w.extractLsb' 16 8 ≠ 0) ∨ (op = 4 ∧ w.extractLsb' 16 12 ≠ 0) ∨
      (op = 5 ∧ w.extractLsb' 3 25 ≠ 0) ∨ (op = 7 ∧ w.extractLsb' 0 24 ≠ 0)) ∧
    ∀ (e : Reject) (s s' : State) (p : Port), decode w = .error e → s.fetch = some (p, w, s') →
      ∃ t released, step s = .next t ∧ s.SameRegs t ∧ t.out = s.out ++ [⟨p, .ignore, released⟩]

/-- R82 with R53: a decoder always takes exactly 32 bits, here four bytes, the least significant first. -/
def Obligations.DecoderTakesFourBytes : Prop :=
  (∀ (bs rest : List Byte) (i : Instr), decodeBytes bs = .ok (i, rest) → bs.length = rest.length + 4) ∧
  (∀ (w : Word) (i : Instr) (rest : List Byte), decode w = .ok i → decodeBytes (wordBytes w ++ rest) = .ok (i, rest)) ∧
  (∀ (w : Word) (e : Reject) (rest : List Byte), decode w = .error e → decodeBytes (wordBytes w ++ rest) = .error e)

/-- R81: the layouts of the three response words. -/
def Obligations.ResponseLayouts : Prop :=
  (∀ (ch : BitVec 4) (rep : Bool) (step : BitVec 5), let w := drWord ch rep step
    w.extractLsb' 16 16 = 0 ∧ w.extractLsb' 12 4 = ch ∧ w.extractLsb' 9 3 = 0 ∧ w.getLsbD 8 = rep ∧
    w.extractLsb' 5 3 = 0 ∧ w.extractLsb' 0 5 = step) ∧
  (∀ (mc : BitVec 16) (idx : BitVec 12) (mute key : Bool), let w := srWord mc idx mute key
    w.extractLsb' 16 16 = mc ∧ w.extractLsb' 4 12 = idx ∧ w.extractLsb' 2 2 = 0 ∧ w.getLsbD 1 = mute ∧ w.getLsbD 0 = key) ∧
  (∀ (ch : BitVec 4) (en : Bool) (ls : BitVec 5) (f : BitVec 16), let w := crWord ch en ls f
    w.extractLsb' 28 4 = ch ∧ w.extractLsb' 25 3 = 0 ∧ w.getLsbD 24 = en ∧ w.extractLsb' 21 3 = 0 ∧
    w.extractLsb' 16 5 = ls ∧ w.extractLsb' 0 16 = f)

/-- R84: each pseudo-command expands to its command, alone and in a line with the prefix of its port as R83 and 95_test_vectors.md write it. -/
def Obligations.PseudoCommandsExpand : Prop :=
  (Pseudo.keyDown.expand = .setKey true ∧ Pseudo.keyUp.expand = .setKey false ∧ Pseudo.muteOn.expand = .setMute true ∧
    Pseudo.muteOff.expand = .setMute false ∧ Pseudo.mix.expand = .mixCycle true true true ∧
    Pseudo.mixNoTone.expand = .mixCycle false true true) ∧
  assembleLine "ctl: KEY_DOWN".toList = some (some .control, .setKey true) ∧
  assembleLine "ctl: KEY_UP".toList = some (some .control, .setKey false) ∧
  assembleLine "ctl: MUTE_ON".toList = some (some .control, .setMute true) ∧
  assembleLine "ctl: MUTE_OFF".toList = some (some .control, .setMute false) ∧
  assembleLine "audio: MIX".toList = some (some .audio, .mixCycle true true true) ∧
  assembleLine "audio: MIX_NOTONE".toList = some (some .audio, .mixCycle false true true)

/-- R83: every operand form of its table. A text of decimal digits is the number it writes, and so is a text of hexadecimal digits after `0x`
(the digits above nine as small letters; capitals are log 14, of which nothing is said here); each number operand admits exactly its field's
values; NOP, READ_STATUS and RESET stand alone; each subset of T, L, R, in that order between bars, or `-` for none, gives its bits. -/
def Obligations.AssemblerOperandForms : Prop :=
  (∀ ds : List Nat, ds ≠ [] → (∀ d ∈ ds, d < 10) → number (ds.map Nat.digitChar) = some (Nat.ofDigits 10 ds.reverse)) ∧
  (∀ ds : List Nat, ds ≠ [] → (∀ d ∈ ds, d < 16) →
    number ('0' :: 'x' :: ds.map Nat.digitChar) = some (Nat.ofDigits 16 ds.reverse)) ∧
  (∀ (a : Text) (i : Instr), assembleOp "SET_KEY".toList [a] = some i ↔ ∃ v, number a = some v ∧ v < 2 ∧ i = .setKey (v == 1)) ∧
  (∀ (a : Text) (i : Instr), assembleOp "SET_MUTE".toList [a] = some i ↔ ∃ v, number a = some v ∧ v < 2 ∧ i = .setMute (v == 1)) ∧
  (∀ (a : Text) (i : Instr), assembleOp "POLL_TICK".toList [a] = some i ↔
    ∃ raw, number a = some raw ∧ raw < 65536 ∧ i = .pollTick (BitVec.ofNat 16 raw)) ∧
  (∀ (a : Text) (i : Instr), assembleOp "READ_CHANNEL".toList [a] = some i ↔
    ∃ ch, number a = some ch ∧ ch < 16 ∧ i = .readChannel (BitVec.ofNat 4 ch)) ∧
  (∀ (a b : Text) (i : Instr), assembleOp "DENOISE_UPDATE".toList [a, b] = some i ↔
    ∃ ch raw, number a = some ch ∧ number b = some raw ∧ ch < 16 ∧ raw < 65536 ∧
      i = .denoiseUpdate (BitVec.ofNat 4 ch) (BitVec.ofNat 16 raw)) ∧
  (assembleOp "NOP".toList [] = some .nop ∧ assembleOp "READ_STATUS".toList [] = some .readStatus ∧
    assembleOp "RESET".toList [] = some .reset) ∧
  (∀ t l r : Bool,
    let letters : List Text := (if t then [['T']] else []) ++ (if l then [['L']] else []) ++ (if r then [['R']] else [])
    assembleOp "MIX_CYCLE".toList [if letters = [] then ['-'] else ['|'].intercalate letters] = some (.mixCycle t l r)) ∧
  (∀ (a : Text) (i : Instr), assembleOp "MIX_CYCLE".toList [a] = some i → ∃ t l r, i = .mixCycle t l r)

/-- R83: a line is its port's prefix, the mnemonic, then operands separated by commas, written with the blanks of 95_test_vectors.md; what
stands after `;` is a comment. That the prefix is not checked against the port that accepts the command is the model's choice (log 14). Other
blanks and a missing prefix are log 14 too, and nothing is said of them here. -/
def Obligations.AssemblerLines : Prop :=
  (∀ (p : Port) (name : Text) (operands : List Text),
    (∀ word ∈ name :: operands, word ≠ [] ∧ ∀ c ∈ word, isBlank c = false ∧ c ≠ ',' ∧ c ≠ ';') →
    assembleLine ((match p with | .control => "ctl: ".toList | .audio => "audio: ".toList) ++ name ++
        (if operands = [] then [] else ' ' :: [',', ' '].intercalate operands)) =
      (assembleOp name operands).map (some p, ·)) ∧
  (∀ line comment : Text, assembleLine (line ++ ';' :: comment) = assembleLine line)

/-! ## The step and the two ports (10_state.md, 20_memory.md, 60_exceptions.md) -/

/-- A step runs the decoded instruction: the next word of the interleaving, when it decodes to an instruction of its port, is executed in
the state without it (R29, R70, R71). -/
def Obligations.StepRunsDecodedInstruction : Prop :=
  ∀ (s s' : State) (p : Port) (w : Word) (i : Instr),
    s.fetch = some (p, w, s') → decode w = .ok i → i.port = p → step s = exec i s'

/-- With no word waiting, a step changes nothing: "it acts only when a command arrives" (R200). -/
def Obligations.IdleBlockWaits : Prop :=
  ∀ s : State, s.ctlIn = [] → s.audIn = [] → step s = .next s

/-- R71: the audio port accepts only MIX_CYCLE, the control port every other instruction, and a defined word on the other port is ignored. -/
def Obligations.PortsAcceptTheirOwnCommands : Prop :=
  ∀ (s s' : State) (p : Port) (w : Word) (i : Instr), s.fetch = some (p, w, s') → decode w = .ok i →
    let own := (∃ t l r, i = .mixCycle t l r) ↔ p = .audio
    (own → step s = exec i s') ∧
    (¬ own → ∃ t released, step s = .next t ∧ s.SameRegs t ∧ t.out = s.out ++ [⟨p, .ignore, released⟩])

/-- R174: an ignored word, reserved or on the wrong port, changes no register, returns no response and produces no output block; blocks
presented with an ignored audio word are released unread, each once, and none is held afterwards. Nothing else in the state changes. -/
def Obligations.IgnoredWordsChangeNothing : Prop :=
  ∀ (s s' : State) (p : Port) (w : Word), s.fetch = some (p, w, s') → (∀ i, decode w = .ok i → i.port ≠ p) →
    ∃ released, released.Nodup ∧ (∀ n, n ∈ released ↔ p = .audio ∧ s'.lane.has n = true) ∧
      step s = .next { s' with
        lane := if p = .audio then Blocks.none else s'.lane
        draws := s.draws + 1
        out := s.out ++ [⟨p, .ignore, released⟩] } ∧
      s.SameRegs s'

/-- R59: a step takes the oldest word of one port, with its blocks, and leaves the other port's queue alone; with no word waiting it takes
none. So each port's own order is kept. That a RESET leaves the words behind it waiting is log 11 (DEDUCED). -/
def Obligations.PortsKeepTheirOrder : Prop :=
  ∀ s t : State, step s = .next t →
    (s.ctlIn = [] ∧ s.audIn = [] ∧ t = s) ∨
    (∃ w, s.ctlIn = w :: t.ctlIn ∧ t.audIn = s.audIn) ∨
    (∃ a, s.audIn = a :: t.audIn ∧ t.ctlIn = s.ctlIn)

/-- R59: every interleaving is allowed: for every order in which the ports could be served until both are empty there is a schedule under
which the run serves them so. That a RESET among the words leaves the words behind it waiting is log 11. -/
def Obligations.EveryInterleavingIsPossible : Prop :=
  ∀ (s : State) (ports : List Port),
    ports.count .control = s.ctlIn.length → ports.count .audio = s.audIn.length →
    ∃ (sched : List Port) (t : State) (events : List Event),
      Host.Core.run Sys2Proof.core ports.length { s with sched := sched } = .next t ∧
      t.ctlIn = [] ∧ t.audIn = [] ∧ t.out = s.out ++ events ∧ events.map Event.port = ports

/-- R190: no step faults, and every command word ends in exactly one of `respond`, `done`, `ignore`, `emit`, `skip`, handed out on the
word's own port: the control port sees the first three, the audio port the last three. -/
def Obligations.EveryCommandEndsOnce : Prop :=
  ∀ (s s' : State) (p : Port) (w : Word), s.fetch = some (p, w, s') →
    ∃ (t : State) (e : Event), step s = .next t ∧ t.out = s.out ++ [e] ∧ e.port = p ∧
      match p with
      | .control => e.reply = .ignore ∨ e.reply = .done ∨ ∃ v, e.reply = .respond v
      | .audio => e.reply = .ignore ∨ e.reply = .skip ∨ ∃ a b, e.reply = .emit a b ∧ a.length = s.build.blockLen ∧ b.length = s.build.blockLen

/-- R56: every block that comes with an audio word is released exactly once by that word, whatever path it takes, and none is held
afterwards. The blocks are those presented and those the word marks (log 7). -/
def Obligations.EveryBlockIsReleasedOnce : Prop :=
  ∀ (s s' : State) (w : Word), s.fetch = some (.audio, w, s') →
    ∃ (t : State) (e : Event), step s = .next t ∧ t.out = s.out ++ [e] ∧ t.lane = Blocks.none ∧ e.released.Nodup ∧
      ∀ n, n ∈ e.released ↔ s'.lane.has n = true ∨ ∃ i, decode w = .ok i ∧ i.marks n = true

/-- R212, R31, R63: no step changes a parameter of the build, the window ROM among them. -/
def Obligations.BuildNeverChanges : Prop :=
  ∀ s t : State, step s = .next t → t.build = s.build

/-- R33, R21 to R27: each register is written only by its owner's commands and RESET. A step that serves the audio port leaves KEY, MUTE, F,
LS and RR; a step that serves the control port leaves IDX and MC unless the word is RESET; KEY changes only on SET_KEY, MUTE only on
SET_MUTE, RR only on POLL_TICK, F and LS only on DENOISE_UPDATE and POLL_TICK, or on RESET. -/
def Obligations.RegistersChangeOnlyByTheirOwner : Prop :=
  ∀ (s s' t : State) (p : Port) (w : Word), s.fetch = some (p, w, s') → step s = .next t →
    let op := (w.extractLsb' 28 4).toNat
    (p = .audio → t.key = s.key ∧ t.mute = s.mute ∧ t.f = s.f ∧ t.ls = s.ls ∧ t.rr = s.rr) ∧
    (p = .control → w ≠ 0xF0000000 → t.idx = s.idx ∧ t.mc = s.mc) ∧
    (op ≠ 15 → op ≠ 1 → t.key = s.key) ∧
    (op ≠ 15 → op ≠ 2 → t.mute = s.mute) ∧
    (op ≠ 15 → op ≠ 4 → t.rr = s.rr) ∧
    (op ≠ 15 → op ≠ 3 → op ≠ 4 → t.f = s.f ∧ t.ls = s.ls)

/-- Every step keeps every register in the range its rule gives it (R23 to R27, R104, R146), keeps a disabled channel at its reset values
(R172) and holds no input block between commands (R56). -/
def Obligations.StepKeepsInvariant : Prop :=
  ∀ s t : State, s.Inv → step s = .next t → t.Inv

/-- Every build's state after power-on reset meets the invariant. -/
def Obligations.PowerOnMeetsInvariant : Prop :=
  (∀ b : Build, (State.powerOn b).Inv) ∧ State.reset.Inv

/-- R210: the reset value of every register, for every build, at power-on and after RESET; after power-on the block waits. -/
def Obligations.ResetValues : Prop :=
  ∀ b : Build, let s := State.powerOn b
    s.key = false ∧ s.mute = false ∧ s.idx = 0 ∧ s.mc = 0 ∧ s.rr = 0 ∧
    s.f = List.replicate b.nch 0 ∧ s.ls = List.replicate b.nch 0 ∧
    (∀ s₀ : State, s₀.build = b → ∃ t, exec .reset s₀ = .next t ∧ s.SameRegs t) ∧
    step s = .next s

/-! ## Tone Envelope Mixer (40_mixer.md) -/

/-- R100: GAIN(s, w) is the exact product 2s × w, of less than 2^48, floored by 2^32, with no overflow. -/
def Obligations.GainIsExactFloor : Prop :=
  (∀ (s : Sample) (w : Word), 0 ≤ w.toInt →
    (2 * s.toInt * w.toInt).natAbs < 2 ^ 48 ∧
    (gain s w).toInt * 2 ^ 32 ≤ 2 * s.toInt * w.toInt ∧ 2 * s.toInt * w.toInt < ((gain s w).toInt + 1) * 2 ^ 32) ∧
  (gain 1000 0x40000000).toInt = 500

/-- R101: the range of GAIN, its corner cases, and its monotony in w. -/
def Obligations.GainRange : Prop :=
  (∀ (s : Sample) (w : Word), 0 ≤ w.toInt →
    min s.toInt 0 ≤ (gain s w).toInt ∧ (gain s w).toInt ≤ max s.toInt 0 ∧
    gain s 0 = 0 ∧
    (0 < s.toInt → (gain s w).toInt ≤ s.toInt - 1) ∧
    (s.toInt < 0 → 1 ≤ w.toInt → (gain s w).toInt ≤ -1)) ∧
  (∀ (s : Sample) (v w : Word), 0 ≤ v.toInt → v.toInt ≤ w.toInt →
    (0 ≤ s.toInt → (gain s v).toInt ≤ (gain s w).toInt) ∧
    (s.toInt < 0 → (gain s w).toInt ≤ (gain s v).toInt)) ∧
  (gain 32767 0x7FFFFFFF).toInt = 32766 ∧ (gain 1 0x7FFFFFFF).toInt = 0 ∧ (gain (-1) 1).toInt = -1 ∧
  (gain (-32768) 1).toInt = -1 ∧ (gain (-32768) 0x7FFFFFFF).toInt = -32768

/-- R102: the envelope step, for every index 0..N: ramp up, full volume, ramp down, silence. -/
def Obligations.EnvelopeStep : Prop :=
  ∀ (b : Build) (s : Sample) (w : Word) (idx : Nat),
    (idx < b.n → b.win[idx]? = some w → env b.toParams true idx s = (gain s w, idx + 1)) ∧
    (idx = b.n → env b.toParams true idx s = (s, b.n)) ∧
    (0 < idx → idx ≤ b.n → b.win[idx - 1]? = some w → env b.toParams false idx s = (gain s w, idx - 1)) ∧
    (idx = 0 → env b.toParams false idx s = (0, 0))

/-- R103: MIX_CYCLE completes in every state, with the outputs, IDX, MC and releases of its pseudocode and nothing else changed: the skip, the
tone path and the pass-through path. The clause on the releases says what they are when the host presents exactly the blocks it marks (R215;
the other case is EveryBlockIsReleasedOnce); the last clause says what a read of a sample the host has brought gives. -/
def Obligations.MixCycleEffect : Prop :=
  ∀ (t l r : Bool) (s : State),
    let silenced := s.mute || decide (0 < s.mc.toNat)
    let mc' := if s.mute then BitVec.ofNat 16 s.build.trailBlocks else if 0 < s.mc.toNat then s.mc - 1 else s.mc
    let pass := fun (present : Bool) (n : BlockName) =>
      if present && !silenced then (List.range s.build.blockLen).map (s.sample n) else List.replicate s.build.blockLen 0
    ∃ released : List BlockName,
    ((Instr.mixCycle t l r).marksMatch s.lane = true →
      released = (if t then [.tone] else []) ++ (if l then [.inl] else []) ++ (if r then [.inr] else [])) ∧
    (t = false →
      exec (.mixCycle t l r) s = .next { s with
        lane := Blocks.none, draws := s.draws + 1, out := s.out ++ [⟨.audio, .skip, released⟩] }) ∧
    (t = true → (s.key = true ∨ 0 < s.idx.toNat) →
      ∃ (ys : List Sample) (ix : Nat → Nat), ys.length = s.build.blockLen ∧ ix 0 = s.idx.toNat ∧
        (∀ i, i < s.build.blockLen → env s.build.toParams s.key (ix i) (s.sample .tone i) = (ys.getD i 0, ix (i + 1))) ∧
        exec (.mixCycle t l r) s = .next { s with
          idx := BitVec.ofNat 12 (ix s.build.blockLen), mc := mc'
          lane := Blocks.none, draws := s.draws + 1, out := s.out ++ [⟨.audio, .emit ys ys, released⟩] }) ∧
    (t = true → s.key = false → s.idx.toNat = 0 →
      exec (.mixCycle t l r) s = .next { s with
        idx := 0, mc := mc'
        lane := Blocks.none, draws := s.draws + 1
        out := s.out ++ [⟨.audio, .emit (pass l .inl) (pass r .inr), released⟩] }) ∧
    (∀ (n : BlockName) (xs : List Sample) (i : Nat) (x : Sample), s.lane.get n = some xs → xs[i]? = some x → s.sample n i = x)

/-- Sample i of a TX block is the tone sample scaled by the coefficient of the window position i steps along the ramp, floored; the index
moves by one per sample until it meets N or 0 (R102, R103, R108). -/
def Obligations.ToneBlockClosedForm : Prop :=
  ∀ (l r : Bool) (s : State), s.idx.toNat ≤ s.build.n → (s.key = true ∨ 0 < s.idx.toNat) →
    ∃ (t : State) (ys : List Sample) (released : List BlockName), exec (.mixCycle true l r) s = .next t ∧
      t.out = s.out ++ [⟨.audio, .emit ys ys, released⟩] ∧ ys.length = s.build.blockLen ∧
      (∀ i, i < s.build.blockLen → (ys.getD i 0).toInt = (2 * (s.sample .tone i).toInt * s.coeff i) / 2 ^ 32) ∧
      t.idx.toNat = if s.key then min (s.idx.toNat + s.build.blockLen) s.build.n else s.idx.toNat - s.build.blockLen

/-- R104: MIX_CYCLE keeps IDX in 0..N and the RX path sets it to 0. ENV reads WIN[idx] and increments only when idx < N, reads WIN[idx − 1] and
decrements only when idx > 0, and reads no entry at idx = N with key down or at idx = 0 with key up: every entry read exists in the table. -/
def Obligations.WindowIndexStaysInRange : Prop :=
  (∀ (t l r : Bool) (s u : State), s.idx.toNat ≤ s.build.n → exec (.mixCycle t l r) s = .next u → u.idx.toNat ≤ s.build.n) ∧
  (∀ (l r : Bool) (s : State), s.isTx = false → ∃ u, exec (.mixCycle true l r) s = .next u ∧ u.idx = 0) ∧
  (∀ (b : Build) (idx : Nat) (s : Sample), idx ≤ b.n →
    (idx < b.n → ∃ w, b.win[idx]? = some w ∧ env b.toParams true idx s = (gain s w, idx + 1)) ∧
    (idx = b.n → env b.toParams true idx s = (s, idx)) ∧
    (0 < idx → ∃ w, b.win[idx - 1]? = some w ∧ env b.toParams false idx s = (gain s w, idx - 1)) ∧
    (idx = 0 → env b.toParams false idx s = (0, idx)))

/-- R105: along a TX block the coefficient never falls while the ramp goes up and ends in unity, never rises while it goes down, and is 0
at window entry 0 and after it. -/
def Obligations.EnvelopeIsMonotone : Prop :=
  ∀ (s : State) (i j : Nat), s.idx.toNat ≤ s.build.n → i ≤ j →
    (s.key = true → s.coeff i ≤ s.coeff j ∧ s.coeff j ≤ 2 ^ 31 ∧ (s.build.n ≤ s.idx.toNat + j → s.coeff j = 2 ^ 31)) ∧
    (s.key = false → s.coeff j ≤ s.coeff i ∧ 0 ≤ s.coeff j ∧ (s.idx.toNat ≤ j + 1 → s.coeff j = 0)) ∧
    (s.key = true → s.idx.toNat = 0 → s.coeff 0 = 0)

/-- R106: a reversal between two executed cycles repeats the last coefficient, and never resets the index. -/
def Obligations.ReversalIsContinuous : Prop :=
  ∀ (l r : Bool) (s t u : State), s.idx.toNat ≤ s.build.n → exec (.mixCycle true l r) s = .next t →
    u.build = t.build → u.idx = t.idx → 0 < t.idx.toNat →
    (s.key = false → u.key = true → t.idx.toNat < s.build.n →
      u.coeff 0 = (winRead s.build.toParams t.idx.toNat).toInt ∧ s.coeff (s.build.blockLen - 1) = u.coeff 0) ∧
    (s.key = true → u.key = false →
      u.coeff 0 = (winRead s.build.toParams (t.idx.toNat - 1)).toInt ∧
      (s.coeff (s.build.blockLen - 1) = u.coeff 0 ∨
        (t.idx.toNat = s.build.n ∧ s.coeff (s.build.blockLen - 1) = 2 ^ 31)))

/-- R107: after an executed cycle with MUTE set, exactly the next M executed cycles with MUTE clear are silenced, MC counting down to 0, and
the ones after them are not; skipped cycles do not count. A silenced RX cycle emits zeros; one that is not passes the inputs on. -/
def Obligations.TrailingMuteIsExact : Prop :=
  (∀ (l r : Bool) (s : State), s.mute = true →
    ∃ t, exec (.mixCycle true l r) s = .next t ∧ ∀ cs : List Cycle,
      gatedCycles { t with mute := false } cs =
        List.replicate (min s.build.trailBlocks (executed cs)) true ++ List.replicate (executed cs - s.build.trailBlocks) false ∧
      (runCycles { t with mute := false } cs).mc.toNat = s.build.trailBlocks - executed cs) ∧
  (∀ (s : State), s.key = false → s.idx.toNat = 0 →
    ∃ t a b released, exec (.mixCycle true true true) s = .next t ∧ t.out = s.out ++ [⟨.audio, .emit a b, released⟩] ∧
      ∀ i, i < s.build.blockLen →
        a.getD i 0 = (if s.gated then 0 else s.sample .inl i) ∧ b.getD i 0 = (if s.gated then 0 else s.sample .inr i))

/-- R108: from IDX = 0 with KEY held at 1 the ramp-up takes exactly N tone samples, spread over consecutive executed cycles, and sample N + 1
onward is unity; from IDX = N with KEY held at 0 the ramp-down takes exactly N samples, every later one of that block is 0, and the next
executed cycle is an RX block. -/
def Obligations.RampTakesWindowLengthSamples : Prop :=
  ∀ (s : State) (cs : List Cycle), let m := executed cs * s.build.blockLen
    (s.idx.toNat = 0 → (∀ c ∈ cs, c.key = true) →
      (runCycles s cs).idx.toNat = min m s.build.n ∧
      ∀ i, { runCycles s cs with key := true : State }.coeff i =
        if m + i < s.build.n then (winRead s.build.toParams (m + i)).toInt else 2 ^ 31) ∧
    (s.idx.toNat = s.build.n → (∀ c ∈ cs, c.key = false) →
      (runCycles s cs).idx.toNat = s.build.n - m ∧
      (∀ i, { runCycles s cs with key := false : State }.coeff i =
        if m + i < s.build.n then (winRead s.build.toParams (s.build.n - 1 - (m + i))).toInt else 0) ∧
      (s.build.n ≤ m → { runCycles s cs with key := false : State }.isTx = false))

/-- R217: any number of skipped cycles freezes IDX and MC, and every other register. -/
def Obligations.SkippedCyclesFreezeState : Prop :=
  ∀ (s : State) (cs : List Cycle), (∀ c ∈ cs, c.t = false ∧ c.key = s.key) → s.SameRegs (runCycles s cs)

/-- Corner case 2 of R103, R218: in a TX block whose ramp-down ends inside it every later sample is 0, on both outputs, IDX is 0 at the end,
and the next executed cycle is an RX block. -/
def Obligations.RampDownEndsInSilence : Prop :=
  ∀ (l r : Bool) (s : State), s.key = false → 0 < s.idx.toNat → s.idx.toNat ≤ s.build.blockLen →
    ∃ t ys released, exec (.mixCycle true l r) s = .next t ∧ t.out = s.out ++ [⟨.audio, .emit ys ys, released⟩] ∧
      (∀ i, s.idx.toNat ≤ i → ys.getD i 0 = 0) ∧ t.idx = 0 ∧ t.isTx = false

/-- R109: SET_KEY writes KEY and completes; nothing else changes. -/
def Obligations.SetKeyEffect : Prop :=
  ∀ (v : Bool) (s : State), exec (.setKey v) s = .next { s with
    key := v, draws := s.draws + 1, out := s.out ++ [⟨.control, .done, []⟩] }

/-- R110: SET_MUTE writes MUTE and completes; nothing else changes, MC among it. -/
def Obligations.SetMuteEffect : Prop :=
  ∀ (v : Bool) (s : State), exec (.setMute v) s = .next { s with
    mute := v, draws := s.draws + 1, out := s.out ++ [⟨.control, .done, []⟩] }

/-- R216: a pulse of KEY and one of MUTE with no executed cycle between the two writes is not seen: the next cycle emits the same blocks and
leaves the same registers as if only the later writes had been made, provided the host brings the blocks it marks (R214). -/
def Obligations.FlagPulseIsNotSeen : Prop :=
  ∀ (t l r v v' k k' : Bool) (s s₁ s₂ s₃ s₄ q₁ q₂ : State) (blocks : Blocks),
    (Instr.mixCycle t l r).wellFormed s.build.toParams .audio blocks = true →
    exec (.setKey v) s = .next s₁ → exec (.setMute k) s₁ = .next s₂ → exec (.setKey v') s₂ = .next s₃ →
    exec (.setMute k') s₃ = .next s₄ → exec (.setKey v') s = .next q₁ → exec (.setMute k') q₁ = .next q₂ →
    ∃ (t₁ t₂ : State) (e : Event),
      exec (.mixCycle t l r) { s₄ with lane := blocks } = .next t₁ ∧
      exec (.mixCycle t l r) { q₂ with lane := blocks } = .next t₂ ∧
      t₁.SameRegs t₂ ∧ t₁.out = s₄.out ++ [e] ∧ t₂.out = q₂.out ++ [e]

/-- The mixer does not depend on the denoiser's registers: two states that agree on build, KEY, MUTE, IDX, MC, the blocks and the free
values give the same outcome and agree on the mixer's registers afterwards (R20, R33). -/
def Obligations.MixerIgnoresDenoiser : Prop :=
  ∀ (t l r : Bool) (s u : State), s.SameMixer u → u.lane = s.lane → u.draws = s.draws →
    ∃ (s' u' : State) (e : Event), exec (.mixCycle t l r) s = .next s' ∧ exec (.mixCycle t l r) u = .next u' ∧
      s'.out = s.out ++ [e] ∧ u'.out = u.out ++ [e] ∧ s'.SameMixer u'

/-- A MIX_CYCLE presented as the host owes it (R214) depends on no free value: whatever the draws, the outcome and the registers are the same. -/
def Obligations.WellFormedCycleDrawsNothing : Prop :=
  ∀ (t l r : Bool) (s : State) (d : Nat), (Instr.mixCycle t l r).wellFormed s.build.toParams .audio s.lane = true →
    ∃ (s' u' : State) (e : Event), exec (.mixCycle t l r) s = .next s' ∧ exec (.mixCycle t l r) { s with draws := d } = .next u' ∧
      s'.SameRegs u' ∧ s'.out = s.out ++ [e] ∧ u'.out = s.out ++ [e]

/-! ## Input Denoiser (41_denoiser.md) -/

/-- R141: on an enabled channel a DENOISE_UPDATE leaves F[ch] at floor(((EW − 1) × F[ch]) / EW) + min(raw, RAW_MAX), with no overflow; the
examples are those of the default build. -/
def Obligations.FilterUpdate : Prop :=
  (∀ (ch : BitVec 4) (raw : BitVec 16) (s : State) (x : Channel), s.RegsOk → s.channel? ch = some x → x.en = true →
    ∃ t, exec (.denoiseUpdate ch raw) s = .next t ∧
      (t.fAt ch).toNat = ((s.build.ew - 1) * (s.fAt ch).toNat) / s.build.ew + min raw.toNat s.build.rawMax) ∧
  ema Params.standard 0 1023 = 1023 ∧ ema Params.standard 1023 1023 = 1982

/-- R146: the filter never leaves 0..FMAX, and FMAX fits 16 bits. -/
def Obligations.FilterBound : Prop :=
  ∀ (b : Build) (f : Nat) (raw : BitVec 16), f ≤ b.ew * b.rawMax →
    ema b.toParams f raw ≤ (b.ew - 1) * b.rawMax + b.rawMax ∧ (b.ew - 1) * b.rawMax + b.rawMax = b.fmax ∧ b.fmax < 2 ^ 16

/-- R147: the difference of one update, the direction of the movement, the steady values, that a steady value is reached and kept, and the
default build's rise from 0. -/
def Obligations.FilterSettles : Prop :=
  (∀ (b : Build) (f : Nat) (raw : BitVec 16), let rc := min raw.toNat b.rawMax
    (ema b.toParams f raw : Int) - f = (rc : Int) - ceilEw b.toParams f ∧
    (ceilEw b.toParams f < rc → f + 1 ≤ ema b.toParams f raw) ∧
    (rc < ceilEw b.toParams f → ema b.toParams f raw + 1 ≤ f) ∧
    (1 ≤ rc → (ceilEw b.toParams f = rc ↔ b.ew * (rc - 1) + 1 ≤ f ∧ f ≤ b.ew * rc)) ∧
    (rc = 0 → (ceilEw b.toParams f = rc ↔ f = 0)) ∧
    ∃ n, ceilEw b.toParams (emaIter b.toParams raw n f) = rc ∧
      (∀ k, n ≤ k → emaIter b.toParams raw k f = emaIter b.toParams raw n f) ∧
      (∀ k, k < n → ceilEw b.toParams (emaIter b.toParams raw k f) ≠ rc)) ∧
  emaIter Params.standard 1023 116 0 = 16352 ∧ ∀ k, 117 ≤ k → emaIter Params.standard 1023 k 0 = 16353

/-- R142: the quantizer gives floor(f / B), the minimum never acting under the laws of the build, and a step 0..C−1; the examples are C = 21. -/
def Obligations.QuantizerSteps : Prop :=
  (∀ (b : Build) (x : Channel) (f : Nat), x ∈ b.chans →
    quantize x f = min (f / x.b) (x.c - 1) ∧ quantize x f < x.c ∧ (f ≤ b.fmax → quantize x f = f / x.b)) ∧
  quantize (Channel.standard 16368 21) 780 = 1 ∧ quantize (Channel.standard 16368 21) 779 = 0 ∧
  quantize (Channel.standard 16368 21) 16368 = 20

/-- R143: after the filter update a step is reported if and only if abs(f − mid(LS)) > H and Q(f) ≠ LS; the reported step is Q(f) and LS
becomes it; else the response says "no change" and LS stays. The second condition never acts when H ≥ floor(B / 2). -/
def Obligations.ReportDecision : Prop :=
  ∀ (ch : BitVec 4) (raw : BitVec 16) (s : State) (x : Channel), s.RegsOk → s.channel? ch = some x → x.en = true →
    ∃ t, exec (.denoiseUpdate ch raw) s = .next t ∧
      let f := (t.fAt ch).toNat
      let k := (s.lsAt ch).toNat
      let q := min (f / x.b) (x.c - 1)
      ((x.h < ((f : Int) - (k * x.b + x.b / 2 : Nat)).natAbs ∧ q ≠ k) →
        (t.lsAt ch).toNat = q ∧ t.out = s.out ++ [⟨.control, .respond (drWord ch true (BitVec.ofNat 5 q)), []⟩]) ∧
      (¬ (x.h < ((f : Int) - (k * x.b + x.b / 2 : Nat)).natAbs ∧ q ≠ k) →
        t.lsAt ch = s.lsAt ch ∧ t.out = s.out ++ [⟨.control, .respond (drWord ch false 0), []⟩]) ∧
      (x.b / 2 ≤ x.h → x.h < ((f : Int) - (k * x.b + x.b / 2 : Nat)).natAbs → q ≠ k)

/-- R144: DENOISE_UPDATE completes in every state whose registers are in range: an absent or disabled channel answers "no change" and
changes no register; an enabled one has F[ch] updated and, on a report, LS[ch]; nothing else changes. -/
def Obligations.DenoiseUpdateEffect : Prop :=
  ∀ (ch : BitVec 4) (raw : BitVec 16) (s : State), s.RegsOk →
    let answer := fun (rep : Bool) (q : BitVec 5) => s.out ++ [(⟨.control, .respond (drWord ch rep q), []⟩ : Event)]
    ((s.build.nch ≤ ch.toNat ∨ ∃ x, s.channel? ch = some x ∧ x.en = false) →
      exec (.denoiseUpdate ch raw) s = .next { s with draws := s.draws + 1, out := answer false 0 }) ∧
    (∀ x, s.channel? ch = some x → x.en = true →
      let f := ((s.build.ew - 1) * (s.fAt ch).toNat) / s.build.ew + min raw.toNat s.build.rawMax
      let k := (s.lsAt ch).toNat
      let q := min (f / x.b) (x.c - 1)
      let fs := s.f.set ch.toNat (BitVec.ofNat 16 f)
      f < 2 ^ 16 ∧ q < 2 ^ 5 ∧
      if x.h < ((f : Int) - (k * x.b + x.b / 2 : Nat)).natAbs ∧ q ≠ k then
        exec (.denoiseUpdate ch raw) s = .next { s with
          f := fs, ls := s.ls.set ch.toNat (BitVec.ofNat 5 q), draws := s.draws + 1, out := answer true (BitVec.ofNat 5 q) }
      else
        exec (.denoiseUpdate ch raw) s = .next { s with f := fs, draws := s.draws + 1, out := answer false 0 })

/-- R145: POLL_TICK completes in every state: RR steps round in every case, and the rest is the body of DENOISE_UPDATE on the channel RR
named. -/
def Obligations.PollTickEffect : Prop :=
  ∀ (raw : BitVec 16) (s : State),
    ∃ t u, exec (.pollTick raw) s = .next t ∧ exec (.denoiseUpdate s.rr raw) s = .next u ∧
      t.rr.toNat = (s.rr.toNat + 1) % s.build.nch ∧ t = { u with rr := t.rr }

/-- R27: NCH consecutive poll ticks sample each channel exactly once, in turn from RR, and leave RR where it was. The channel a tick
sampled is the ch field of its response. -/
def Obligations.RoundRobinCoversEveryChannel : Prop :=
  ∀ (s : State) (raws : List (BitVec 16)), s.RegsOk → raws.length = s.build.nch →
    ∃ words : List Word,
      (runPolls s raws).out = s.out ++ words.map (fun w => ⟨.control, .respond w, []⟩) ∧
      (runPolls s raws).rr = s.rr ∧
      words.map (fun w => (w.extractLsb' 12 4).toNat) = (List.range s.build.nch).map (fun i => (s.rr.toNat + i) % s.build.nch) ∧
      ∀ c, c < s.build.nch → (words.map (fun w => (w.extractLsb' 12 4).toNat)).count c = 1

/-- R148: while the filtered value of a channel stays inside the hysteresis band of its last step, no update reports and LS does not
change, whatever the raw values. -/
def Obligations.QuietInsideTheBand : Prop :=
  ∀ (ch : BitVec 4) (s : State) (x : Channel) (raws : List (BitVec 16)), s.channel? ch = some x → x.en = true →
    (∀ f ∈ filteredRun ch s raws, ((f : Int) - ((s.lsAt ch).toNat * x.b + x.b / 2 : Nat)).natAbs ≤ x.h) →
    (runUpdates ch s raws).ls = s.ls ∧
    (runUpdates ch s raws).out = s.out ++ List.replicate raws.length ⟨.control, .respond (drWord ch false 0), []⟩

/-- R149, first part: a report sets LS to Q(f); a report of k + 1 from LS = k needs f ≥ mid(k) + H + 1, one of k from LS = k + 1 needs
f ≤ mid(k + 1) − H − 1, so two such reports lie 2H + 2 − B counts apart. -/
def Obligations.AlternatingReportsNeedSpread : Prop :=
  ∀ (ch : BitVec 4) (raw raw' : BitVec 16) (s t s' t' : State) (x : Channel), s.RegsOk → s'.RegsOk → s'.build = s.build →
    s.channel? ch = some x → x.en = true →
    exec (.denoiseUpdate ch raw) s = .next t → exec (.denoiseUpdate ch raw') s' = .next t' →
    (t.lsAt ch ≠ s.lsAt ch → (t.lsAt ch).toNat = quantize x (t.fAt ch).toNat) ∧
    ((t.lsAt ch).toNat = (s.lsAt ch).toNat + 1 → (s.lsAt ch).toNat * x.b + x.b / 2 + x.h + 1 ≤ (t.fAt ch).toNat) ∧
    ((s'.lsAt ch).toNat = (t'.lsAt ch).toNat + 1 → (t'.fAt ch).toNat + x.h + 1 ≤ (s'.lsAt ch).toNat * x.b + x.b / 2) ∧
    ((t.lsAt ch).toNat = (s.lsAt ch).toNat + 1 → s'.lsAt ch = t.lsAt ch → t'.lsAt ch = s.lsAt ch →
      (t'.fAt ch).toNat + 2 * x.h + 2 ≤ (t.fAt ch).toNat + x.b)

/-- R149, second part: while the filtered value moves monotonically each step is reported at most once: the reported steps rise strictly
with a rising value and fall strictly with a falling one. -/
def Obligations.MonotoneMovementReportsOnce : Prop :=
  ∀ (ch : BitVec 4) (s : State) (x : Channel) (raws : List (BitVec 16)), s.RegsOk → s.channel? ch = some x → x.en = true →
    ((filteredRun ch s raws).Pairwise (· ≤ ·) → (reportedRun ch s raws).Pairwise (· < ·)) ∧
    ((filteredRun ch s raws).Pairwise (· ≥ ·) → (reportedRun ch s raws).Pairwise (· > ·))

/-- The denoiser does not depend on the mixer's registers: two states that agree on build, F, LS and RR give the same response and agree on
the denoiser's registers afterwards (R20, R33). -/
def Obligations.DenoiserIgnoresMixer : Prop :=
  ∀ (i : Instr) (s u : State), (∃ ch raw, i = .denoiseUpdate ch raw) ∨ (∃ raw, i = .pollTick raw) ∨ (∃ ch, i = .readChannel ch) →
    s.SameDenoiser u →
    ∃ (s' u' : State) (e : Event), exec i s = .next s' ∧ exec i u = .next u' ∧
      s'.out = s.out ++ [e] ∧ u'.out = u.out ++ [e] ∧ s'.SameDenoiser u'

/-- R193 (4): an absent or disabled channel answers before the raw value is looked at: any two raw values give the same state, and POLL_TICK
still advances RR. -/
def Obligations.AbsentChannelNeverLooksAtRaw : Prop :=
  ∀ (ch : BitVec 4) (raw raw' : BitVec 16) (s : State), s.enabled? ch = none →
    exec (.denoiseUpdate ch raw) s = exec (.denoiseUpdate ch raw') s ∧
    (s.rr = ch → exec (.pollTick raw) s = .next { s with
      rr := BitVec.ofNat 4 ((ch.toNat + 1) % s.build.nch), draws := s.draws + 1
      out := s.out ++ [⟨.control, .respond (drWord ch false 0), []⟩] })

/-! ## System commands (42_system.md) and reset (70_reset_and_hazards.md) -/

/-- R170: NOP completes and changes no register. -/
def Obligations.NopEffect : Prop :=
  ∀ s : State, exec .nop s = .next { s with draws := s.draws + 1, out := s.out ++ [⟨.control, .done, []⟩] }

/-- R171: READ_STATUS returns {MC, IDX, 00, MUTE, KEY} and changes no register. -/
def Obligations.ReadStatusEffect : Prop :=
  ∀ s : State, ∃ w : Word,
    exec .readStatus s = .next { s with draws := s.draws + 1, out := s.out ++ [⟨.control, .respond w, []⟩] } ∧
    w.toNat = s.mc.toNat * 2 ^ 16 + s.idx.toNat * 2 ^ 4 + s.mute.toNat * 2 + s.key.toNat

/-- R172: READ_CHANNEL returns {ch, 000, EN, 000, LS, F}, all zero but ch for a channel the build has not, and changes no register; a disabled
channel reads its reset values. -/
def Obligations.ReadChannelEffect : Prop :=
  ∀ (ch : BitVec 4) (s : State), ∃ w : Word,
    exec (.readChannel ch) s = .next { s with draws := s.draws + 1, out := s.out ++ [⟨.control, .respond w, []⟩] } ∧
    (s.build.nch ≤ ch.toNat → w.toNat = ch.toNat * 2 ^ 28) ∧
    (∀ x, s.channel? ch = some x →
      w.toNat = ch.toNat * 2 ^ 28 + x.en.toNat * 2 ^ 24 + (s.lsAt ch).toNat * 2 ^ 16 + (s.fAt ch).toNat) ∧
    (∀ x, s.RegsOk → s.channel? ch = some x → x.en = false → w.toNat = ch.toNat * 2 ^ 28)

/-- R173: RESET puts every register of R20 to its reset value and completes; the build is not changed. -/
def Obligations.ResetEffect : Prop :=
  ∀ s : State, ∃ t, exec .reset s = .next t ∧
    t.key = false ∧ t.mute = false ∧ t.idx = 0 ∧ t.mc = 0 ∧ t.rr = 0 ∧
    t.f = List.replicate s.build.nch 0 ∧ t.ls = List.replicate s.build.nch 0 ∧
    t.build = s.build ∧ t.out = s.out ++ [⟨.control, .done, []⟩]

/-- RESET discards nothing that stands at the ports: the words waiting, their blocks and the order of the ports stay (log 11, DEDUCED from
R173 and R59). -/
def Obligations.ResetLeavesThePorts : Prop :=
  ∀ s : State, ∃ t, exec .reset s = .next t ∧ s.SameQueues t ∧ t.lane = s.lane

/-- R213: after reset the first executed cycle passes the inputs on unmodified, and the first update of an enabled channel filters from 0 and
reports exactly when the filtered value is out of band(0) and out of bucket 0. -/
def Obligations.FirstCommandsAfterReset : Prop :=
  ∀ (s s₀ : State), exec .reset s₀ = .next s →
    (∀ (blocks : Blocks) (xs ys : List Sample), blocks.inl = some xs → blocks.inr = some ys →
      xs.length = s.build.blockLen → ys.length = s.build.blockLen →
      ∃ t released, exec (.mixCycle true true true) { s with lane := blocks } = .next t ∧
        t.out = s.out ++ [⟨.audio, .emit xs ys, released⟩]) ∧
    (∀ (ch : BitVec 4) (raw : BitVec 16) (x : Channel), s.channel? ch = some x → x.en = true →
      ∃ t w, exec (.denoiseUpdate ch raw) s = .next t ∧ t.out = s.out ++ [⟨.control, .respond w, []⟩] ∧
        (t.fAt ch).toNat = min raw.toNat s.build.rawMax ∧
        (w.getLsbD 8 = true ↔ x.h < (((t.fAt ch).toNat : Int) - (x.b / 2 : Nat)).natAbs ∧ quantize x (t.fAt ch).toNat ≠ 0))
end

