-- ==== Sys2Proof/Laws/Assembler.lean ====
section
/-! SUPPORT. What each function that reads assembler text gives, one lemma each. -/

namespace Sys2Proof.Machine

@[simp] theorem trim_nil : trim [] = [] := rfl

@[simp] theorem cut_nil (sep : Char) : cut sep [] = [[]] := rfl

@[simp] theorem digits_nil (base : Nat) (digit : Char → Option Nat) (acc : Nat) : digits base digit acc [] = some acc := rfl

theorem decDigit_digitChar : ∀ d < 10, decDigit (Nat.digitChar d) = some d := by decide

theorem hexDigit_digitChar : ∀ d < 16, hexDigit (Nat.digitChar d) = some d := by decide

/-- A text whose characters stand for the digits ds continues the number so far by those digits. -/
theorem digits_map_digitChar (base : Nat) (digit : Char → Option Nat) (ds : List Nat)
    (h : ∀ d ∈ ds, digit (Nat.digitChar d) = some d) (acc : Nat) :
    digits base digit acc (ds.map Nat.digitChar) = some (acc * base ^ ds.length + Nat.ofDigits base ds.reverse) := by
  induction ds generalizing acc with
  | nil => simp
  | cons d ds ih =>
    simp only [List.map_cons, digits, h d (by simp)]
    rw [ih fun d hd => h d (by simp [hd])]
    simp [Nat.ofDigits_append, pow_succ]
    ring

/-- What stands after the comment character changes nothing. -/
@[simp] theorem dropComment_append (line comment : Text) : dropComment (line ++ ';' :: comment) = dropComment line := by
  unfold dropComment
  induction line with
  | nil => simp
  | cons c cs ih => simp only [List.cons_append, List.takeWhile_cons, ih]

/-- A text without a comment character is kept whole. -/
theorem dropComment_eq_self {t : Text} (h : ∀ c ∈ t, c ≠ ';') : dropComment t = t := by
  unfold dropComment
  rw [List.takeWhile_eq_self_iff]
  simpa using h

/-- A blank at the front is dropped. -/
@[simp] theorem trim_space (t : Text) : trim (' ' :: t) = trim t := by
  unfold trim
  rw [List.dropWhile_cons_of_pos rfl]

/-- A text with no blank at either end is kept whole. -/
theorem trim_eq_self {a b : Char} {m : Text} (ha : isBlank a = false) (hl : (a :: m).getLast? = some b) (hb : isBlank b = false) :
    trim (a :: m) = a :: m := by
  unfold trim
  rw [List.dropWhile_cons_of_neg (by simp [ha])]
  obtain ⟨r, hr⟩ : ∃ r, (a :: m).reverse = b :: r := by
    rw [← List.head?_reverse] at hl
    cases hr : (a :: m).reverse with
    | nil => rw [hr] at hl; cases hl
    | cons x r => rw [hr] at hl; exact ⟨r, by rw [Option.some.inj hl]⟩
  rw [hr, List.dropWhile_cons_of_neg (by simp [hb]), ← hr, List.reverse_reverse]

theorem cut_ne_nil (sep : Char) (t : Text) : cut sep t ≠ [] := by
  cases t with
  | nil => simp
  | cons c cs => simp only [cut]; split <;> (try split) <;> simp

/-- A text without the separator is one piece. -/
theorem cut_eq_singleton {sep : Char} {t : Text} (h : ∀ c ∈ t, c ≠ sep) : cut sep t = [t] := by
  induction t with
  | nil => rfl
  | cons c cs ih => simp [cut, ih fun d hd => h d (by simp [hd]), h c (by simp)]

/-- The first piece ends at the first separator. -/
theorem cut_append {sep : Char} {t : Text} (h : ∀ c ∈ t, c ≠ sep) (rest : Text) : cut sep (t ++ sep :: rest) = t :: cut sep rest := by
  induction t with
  | nil =>
    simp only [List.nil_append, cut]
    cases hc : cut sep rest with
    | nil => exact absurd hc (cut_ne_nil sep rest)
    | cons => simp
  | cons c cs ih => simp [cut, ih fun d hd => h d (by simp [hd]), h c (by simp)]

end Sys2Proof.Machine
end

