-- ==== Sys2Proof/Laws/Config.lean ====
section
/-! SUPPORT. The laws of a build (00_scope.md R6, R7), one lemma each, read off the check a Build carries. -/

namespace Sys2Proof

/-- Everything the check says, at once. -/
theorem Params.lawful_iff (p : Params) : p.lawful = true ↔
    1 ≤ p.blockLen ∧ 1 ≤ p.n ∧ p.n ≤ 4095 ∧ rising p.win = true ∧ (∀ w ∈ p.win, 0 ≤ w.toInt) ∧ p.win.head? = some 0 ∧
    p.trailBlocks ≤ 65535 ∧ 1 ≤ p.nch ∧ p.nch ≤ 16 ∧ (∀ x ∈ p.chans, x.lawful p.fmax = true) ∧
    2 ≤ p.ew ∧ p.ew = 2 ^ p.ew.log2 ∧ 1 ≤ p.rawMax ∧ p.fmax ≤ 65535 := by
  simp only [Params.lawful, Bool.and_eq_true, decide_eq_true_eq, List.all_eq_true, and_assoc]

theorem Channel.lawful_iff (m : Nat) (x : Channel) : x.lawful m = true ↔
    2 ≤ x.c ∧ x.c ≤ 32 ∧ m < x.b * x.c ∧ x.b * (x.c - 1) ≤ m := by
  simp only [Channel.lawful, Bool.and_eq_true, decide_eq_true_eq, and_assoc]

namespace Build

variable (b : Build)

theorem one_le_blockLen : 1 ≤ b.blockLen := (b.toParams.lawful_iff.mp b.lawful_eq).1
theorem one_le_n : 1 ≤ b.n := (b.toParams.lawful_iff.mp b.lawful_eq).2.1
theorem n_le : b.n ≤ 4095 := (b.toParams.lawful_iff.mp b.lawful_eq).2.2.1
theorem rising_win : rising b.win = true := (b.toParams.lawful_iff.mp b.lawful_eq).2.2.2.1
theorem win_nonneg : ∀ w ∈ b.win, 0 ≤ w.toInt := (b.toParams.lawful_iff.mp b.lawful_eq).2.2.2.2.1
theorem win_head : b.win.head? = some 0 := (b.toParams.lawful_iff.mp b.lawful_eq).2.2.2.2.2.1
theorem trailBlocks_le : b.trailBlocks ≤ 65535 := (b.toParams.lawful_iff.mp b.lawful_eq).2.2.2.2.2.2.1
theorem one_le_nch : 1 ≤ b.nch := (b.toParams.lawful_iff.mp b.lawful_eq).2.2.2.2.2.2.2.1
theorem nch_le : b.nch ≤ 16 := (b.toParams.lawful_iff.mp b.lawful_eq).2.2.2.2.2.2.2.2.1
theorem chans_lawful : ∀ x ∈ b.chans, x.lawful b.fmax = true := (b.toParams.lawful_iff.mp b.lawful_eq).2.2.2.2.2.2.2.2.2.1
theorem two_le_ew : 2 ≤ b.ew := (b.toParams.lawful_iff.mp b.lawful_eq).2.2.2.2.2.2.2.2.2.2.1
theorem one_le_rawMax : 1 ≤ b.rawMax := (b.toParams.lawful_iff.mp b.lawful_eq).2.2.2.2.2.2.2.2.2.2.2.2.1
theorem fmax_le : b.fmax ≤ 65535 := (b.toParams.lawful_iff.mp b.lawful_eq).2.2.2.2.2.2.2.2.2.2.2.2.2

end Build

/-- R7 (a) between any two places of the table. -/
theorem rising_le {ws : List Word} (h : rising ws = true) :
    ∀ {i j : Nat} {v w : Word}, i ≤ j → ws[i]? = some v → ws[j]? = some w → v.toInt ≤ w.toInt := by
  induction ws with
  | nil => intro i j v w _ hv; simp at hv
  | cons a ws ih =>
    have tail : rising ws = true := by
      cases ws with
      | nil => rfl
      | cons b ws => simp only [rising, Bool.and_eq_true] at h; exact h.2
    have first : ∀ (j : Nat) (w : Word), ws[j]? = some w → a.toInt ≤ w.toInt := by
      cases ws with
      | nil => intro j w hw; simp at hw
      | cons b ws =>
        simp only [rising, Bool.and_eq_true, decide_eq_true_eq] at h
        exact fun j w hw => h.1.trans (ih tail (Nat.zero_le j) rfl hw)
    intro i j v w hij hv hw
    cases i with
    | zero =>
      obtain rfl : a = v := by simpa using hv
      cases j with
      | zero => obtain rfl : a = w := by simpa using hw
                exact le_rfl
      | succ j => exact first j w (by simpa using hw)
    | succ i =>
      cases j with
      | zero => omega
      | succ j => exact ih tail (Nat.le_of_succ_le_succ hij) (by simpa using hv) (by simpa using hw)

/-- R7 (e) and the legal values of C, for a channel of a build. -/
theorem Build.channel_laws (b : Build) {x : Channel} (h : x ∈ b.chans) :
    2 ≤ x.c ∧ x.c ≤ 32 ∧ b.fmax < x.b * x.c ∧ x.b * (x.c - 1) ≤ b.fmax :=
  (Channel.lawful_iff _ x).mp (b.chans_lawful x h)

/-- The bucket width of a channel of a build is not 0. -/
theorem Build.one_le_width (b : Build) {x : Channel} (h : x ∈ b.chans) : 1 ≤ x.b := by
  have := (b.channel_laws h).2.2.1
  rcases Nat.eq_zero_or_pos x.b with h0 | h0
  · simp [h0] at this
  · exact h0

end Sys2Proof
end

