-- ==== Sys2Proof/Laws/Decode.lean ====
section
/-! SUPPORT. What the decoder can answer: one case per op (R70, R72 to R77, R80). -/

namespace Sys2Proof

/-- A field that fits the word at its place counts its value times the weight of its lowest bit. -/
theorem place_toNat {k lo : Nat} (v : BitVec k) (h : k + lo ≤ 32) : (place v lo).toNat = v.toNat * 2 ^ lo := by
  have hv := v.isLt
  have hk : 2 ^ k ≤ 2 ^ 32 := Nat.pow_le_pow_right (by norm_num) (by omega)
  unfold place
  rw [BitVec.toNat_shiftLeft, BitVec.toNat_setWidth, Nat.shiftLeft_eq, Nat.mod_eq_of_lt (a := v.toNat) (by omega)]
  apply Nat.mod_eq_of_lt
  calc v.toNat * 2 ^ lo < 2 ^ k * 2 ^ lo := by gcongr
    _ = 2 ^ (k + lo) := (pow_add 2 k lo).symm
    _ ≤ 2 ^ 32 := Nat.pow_le_pow_right (by norm_num) h

theorem ifZero_eq_ok {k : Nat} {w : Word} {r : BitVec k} {i j : Instr} :
    ifZero w r i = .ok j ↔ r = 0 ∧ i = j := by
  unfold ifZero; split <;> simp_all

/-- The decoder's answer `ok` by op: which reserved bits are 0, and the instruction. -/
theorem decode_eq_ok {w : Word} {i : Instr} : decode w = .ok i ↔
    (opField w = 0x0 ∧ w.extractLsb' 0 28 = 0 ∧ i = .nop) ∨
    (opField w = 0x1 ∧ w.extractLsb' 1 27 = 0 ∧ i = .setKey (w.getLsbD 0)) ∨
    (opField w = 0x2 ∧ w.extractLsb' 1 27 = 0 ∧ i = .setMute (w.getLsbD 0)) ∨
    (opField w = 0x3 ∧ w.extractLsb' 16 8 = 0 ∧ i = .denoiseUpdate (chField w) (rawField w)) ∨
    (opField w = 0x4 ∧ w.extractLsb' 16 12 = 0 ∧ i = .pollTick (rawField w)) ∨
    (opField w = 0x5 ∧ w.extractLsb' 3 25 = 0 ∧ i = .mixCycle (w.getLsbD 0) (w.getLsbD 1) (w.getLsbD 2)) ∨
    (opField w = 0x6 ∧ w.extractLsb' 0 28 = 0 ∧ i = .readStatus) ∨
    (opField w = 0x7 ∧ w.extractLsb' 0 24 = 0 ∧ i = .readChannel (chField w)) ∨
    (opField w = 0xF ∧ w.extractLsb' 0 28 = 0 ∧ i = .reset) := by
  unfold decode
  generalize hop : opField w = op
  have all : ∀ op : BitVec 4, op = 0 ∨ op = 1 ∨ op = 2 ∨ op = 3 ∨ op = 4 ∨ op = 5 ∨ op = 6 ∨ op = 7 ∨ op = 8 ∨ op = 9 ∨ op = 10 ∨ op = 11 ∨ op = 12
      ∨ op = 13 ∨ op = 14 ∨ op = 15  := by decide
  rcases all op with h | h | h | h | h | h | h | h | h | h | h | h | h | h | h | h <;> subst h <;>
    simp [ifZero_eq_ok, eq_comm (a := i)]

end Sys2Proof
end

