-- ==== Sys2Proof/Laws/State.lean ====
section
/-! SUPPORT. What each named update of State does to each field: one lemma per field, so that no proof unfolds a record update. -/

namespace Sys2Proof.Machine

/-! ### finishControl -/

@[simp] theorem State.finishControl_build (s : State) (r : Reply) : (s.finishControl r).build = s.build := rfl
@[simp] theorem State.finishControl_key (s : State) (r : Reply) : (s.finishControl r).key = s.key := rfl
@[simp] theorem State.finishControl_mute (s : State) (r : Reply) : (s.finishControl r).mute = s.mute := rfl
@[simp] theorem State.finishControl_idx (s : State) (r : Reply) : (s.finishControl r).idx = s.idx := rfl
@[simp] theorem State.finishControl_mc (s : State) (r : Reply) : (s.finishControl r).mc = s.mc := rfl
@[simp] theorem State.finishControl_f (s : State) (r : Reply) : (s.finishControl r).f = s.f := rfl
@[simp] theorem State.finishControl_ls (s : State) (r : Reply) : (s.finishControl r).ls = s.ls := rfl
@[simp] theorem State.finishControl_rr (s : State) (r : Reply) : (s.finishControl r).rr = s.rr := rfl
@[simp] theorem State.finishControl_lane (s : State) (r : Reply) : (s.finishControl r).lane = s.lane := rfl
@[simp] theorem State.finishControl_ctlIn (s : State) (r : Reply) : (s.finishControl r).ctlIn = s.ctlIn := rfl
@[simp] theorem State.finishControl_audIn (s : State) (r : Reply) : (s.finishControl r).audIn = s.audIn := rfl
@[simp] theorem State.finishControl_sched (s : State) (r : Reply) : (s.finishControl r).sched = s.sched := rfl
@[simp] theorem State.finishControl_draws (s : State) (r : Reply) : (s.finishControl r).draws = s.draws + 1 := rfl
@[simp] theorem State.finishControl_out (s : State) (r : Reply) : (s.finishControl r).out = s.out ++ [⟨.control, r, []⟩] := rfl

/-! ### finishAudio -/

@[simp] theorem State.finishAudio_build (s : State) (r : Reply) (rel : List BlockName) : (s.finishAudio r rel).build = s.build := rfl
@[simp] theorem State.finishAudio_key (s : State) (r : Reply) (rel : List BlockName) : (s.finishAudio r rel).key = s.key := rfl
@[simp] theorem State.finishAudio_mute (s : State) (r : Reply) (rel : List BlockName) : (s.finishAudio r rel).mute = s.mute := rfl
@[simp] theorem State.finishAudio_idx (s : State) (r : Reply) (rel : List BlockName) : (s.finishAudio r rel).idx = s.idx := rfl
@[simp] theorem State.finishAudio_mc (s : State) (r : Reply) (rel : List BlockName) : (s.finishAudio r rel).mc = s.mc := rfl
@[simp] theorem State.finishAudio_f (s : State) (r : Reply) (rel : List BlockName) : (s.finishAudio r rel).f = s.f := rfl
@[simp] theorem State.finishAudio_ls (s : State) (r : Reply) (rel : List BlockName) : (s.finishAudio r rel).ls = s.ls := rfl
@[simp] theorem State.finishAudio_rr (s : State) (r : Reply) (rel : List BlockName) : (s.finishAudio r rel).rr = s.rr := rfl
@[simp] theorem State.finishAudio_lane (s : State) (r : Reply) (rel : List BlockName) : (s.finishAudio r rel).lane = Blocks.none := rfl
@[simp] theorem State.finishAudio_ctlIn (s : State) (r : Reply) (rel : List BlockName) : (s.finishAudio r rel).ctlIn = s.ctlIn := rfl
@[simp] theorem State.finishAudio_audIn (s : State) (r : Reply) (rel : List BlockName) : (s.finishAudio r rel).audIn = s.audIn := rfl
@[simp] theorem State.finishAudio_sched (s : State) (r : Reply) (rel : List BlockName) : (s.finishAudio r rel).sched = s.sched := rfl
@[simp] theorem State.finishAudio_draws (s : State) (r : Reply) (rel : List BlockName) : (s.finishAudio r rel).draws = s.draws + 1 := rfl
@[simp] theorem State.finishAudio_out (s : State) (r : Reply) (rel : List BlockName) : (s.finishAudio r rel).out = s.out ++ [⟨.audio, r, rel⟩] := rfl

/-! ### writeF -/

@[simp] theorem State.writeF_build (s : State) (ch : BitVec 4) (v : BitVec 16) : (s.writeF ch v).build = s.build := rfl
@[simp] theorem State.writeF_key (s : State) (ch : BitVec 4) (v : BitVec 16) : (s.writeF ch v).key = s.key := rfl
@[simp] theorem State.writeF_mute (s : State) (ch : BitVec 4) (v : BitVec 16) : (s.writeF ch v).mute = s.mute := rfl
@[simp] theorem State.writeF_idx (s : State) (ch : BitVec 4) (v : BitVec 16) : (s.writeF ch v).idx = s.idx := rfl
@[simp] theorem State.writeF_mc (s : State) (ch : BitVec 4) (v : BitVec 16) : (s.writeF ch v).mc = s.mc := rfl
@[simp] theorem State.writeF_f (s : State) (ch : BitVec 4) (v : BitVec 16) : (s.writeF ch v).f = s.f.set ch.toNat v := rfl
@[simp] theorem State.writeF_ls (s : State) (ch : BitVec 4) (v : BitVec 16) : (s.writeF ch v).ls = s.ls := rfl
@[simp] theorem State.writeF_rr (s : State) (ch : BitVec 4) (v : BitVec 16) : (s.writeF ch v).rr = s.rr := rfl
@[simp] theorem State.writeF_lane (s : State) (ch : BitVec 4) (v : BitVec 16) : (s.writeF ch v).lane = s.lane := rfl
@[simp] theorem State.writeF_ctlIn (s : State) (ch : BitVec 4) (v : BitVec 16) : (s.writeF ch v).ctlIn = s.ctlIn := rfl
@[simp] theorem State.writeF_audIn (s : State) (ch : BitVec 4) (v : BitVec 16) : (s.writeF ch v).audIn = s.audIn := rfl
@[simp] theorem State.writeF_sched (s : State) (ch : BitVec 4) (v : BitVec 16) : (s.writeF ch v).sched = s.sched := rfl
@[simp] theorem State.writeF_draws (s : State) (ch : BitVec 4) (v : BitVec 16) : (s.writeF ch v).draws = s.draws := rfl
@[simp] theorem State.writeF_out (s : State) (ch : BitVec 4) (v : BitVec 16) : (s.writeF ch v).out = s.out := rfl

/-! ### writeLs -/

@[simp] theorem State.writeLs_build (s : State) (ch : BitVec 4) (v : BitVec 5) : (s.writeLs ch v).build = s.build := rfl
@[simp] theorem State.writeLs_key (s : State) (ch : BitVec 4) (v : BitVec 5) : (s.writeLs ch v).key = s.key := rfl
@[simp] theorem State.writeLs_mute (s : State) (ch : BitVec 4) (v : BitVec 5) : (s.writeLs ch v).mute = s.mute := rfl
@[simp] theorem State.writeLs_idx (s : State) (ch : BitVec 4) (v : BitVec 5) : (s.writeLs ch v).idx = s.idx := rfl
@[simp] theorem State.writeLs_mc (s : State) (ch : BitVec 4) (v : BitVec 5) : (s.writeLs ch v).mc = s.mc := rfl
@[simp] theorem State.writeLs_f (s : State) (ch : BitVec 4) (v : BitVec 5) : (s.writeLs ch v).f = s.f := rfl
@[simp] theorem State.writeLs_ls (s : State) (ch : BitVec 4) (v : BitVec 5) : (s.writeLs ch v).ls = s.ls.set ch.toNat v := rfl
@[simp] theorem State.writeLs_rr (s : State) (ch : BitVec 4) (v : BitVec 5) : (s.writeLs ch v).rr = s.rr := rfl
@[simp] theorem State.writeLs_lane (s : State) (ch : BitVec 4) (v : BitVec 5) : (s.writeLs ch v).lane = s.lane := rfl
@[simp] theorem State.writeLs_ctlIn (s : State) (ch : BitVec 4) (v : BitVec 5) : (s.writeLs ch v).ctlIn = s.ctlIn := rfl
@[simp] theorem State.writeLs_audIn (s : State) (ch : BitVec 4) (v : BitVec 5) : (s.writeLs ch v).audIn = s.audIn := rfl
@[simp] theorem State.writeLs_sched (s : State) (ch : BitVec 4) (v : BitVec 5) : (s.writeLs ch v).sched = s.sched := rfl
@[simp] theorem State.writeLs_draws (s : State) (ch : BitVec 4) (v : BitVec 5) : (s.writeLs ch v).draws = s.draws := rfl
@[simp] theorem State.writeLs_out (s : State) (ch : BitVec 4) (v : BitVec 5) : (s.writeLs ch v).out = s.out := rfl

/-! ### dropGrant -/

@[simp] theorem State.dropGrant_build (s : State) : (s.dropGrant).build = s.build := rfl
@[simp] theorem State.dropGrant_key (s : State) : (s.dropGrant).key = s.key := rfl
@[simp] theorem State.dropGrant_mute (s : State) : (s.dropGrant).mute = s.mute := rfl
@[simp] theorem State.dropGrant_idx (s : State) : (s.dropGrant).idx = s.idx := rfl
@[simp] theorem State.dropGrant_mc (s : State) : (s.dropGrant).mc = s.mc := rfl
@[simp] theorem State.dropGrant_f (s : State) : (s.dropGrant).f = s.f := rfl
@[simp] theorem State.dropGrant_ls (s : State) : (s.dropGrant).ls = s.ls := rfl
@[simp] theorem State.dropGrant_rr (s : State) : (s.dropGrant).rr = s.rr := rfl
@[simp] theorem State.dropGrant_lane (s : State) : (s.dropGrant).lane = s.lane := rfl
@[simp] theorem State.dropGrant_ctlIn (s : State) : (s.dropGrant).ctlIn = s.ctlIn := rfl
@[simp] theorem State.dropGrant_audIn (s : State) : (s.dropGrant).audIn = s.audIn := rfl
@[simp] theorem State.dropGrant_sched (s : State) : (s.dropGrant).sched = s.sched.tail := rfl
@[simp] theorem State.dropGrant_draws (s : State) : (s.dropGrant).draws = s.draws := rfl
@[simp] theorem State.dropGrant_out (s : State) : (s.dropGrant).out = s.out := rfl

/-! ### clearRegisters -/

@[simp] theorem State.clearRegisters_build (s : State) : (s.clearRegisters).build = s.build := rfl
@[simp] theorem State.clearRegisters_key (s : State) : (s.clearRegisters).key = false := rfl
@[simp] theorem State.clearRegisters_mute (s : State) : (s.clearRegisters).mute = false := rfl
@[simp] theorem State.clearRegisters_idx (s : State) : (s.clearRegisters).idx = 0 := rfl
@[simp] theorem State.clearRegisters_mc (s : State) : (s.clearRegisters).mc = 0 := rfl
@[simp] theorem State.clearRegisters_f (s : State) : (s.clearRegisters).f = List.replicate s.build.nch 0 := rfl
@[simp] theorem State.clearRegisters_ls (s : State) : (s.clearRegisters).ls = List.replicate s.build.nch 0 := rfl
@[simp] theorem State.clearRegisters_rr (s : State) : (s.clearRegisters).rr = 0 := rfl
@[simp] theorem State.clearRegisters_lane (s : State) : (s.clearRegisters).lane = s.lane := rfl
@[simp] theorem State.clearRegisters_ctlIn (s : State) : (s.clearRegisters).ctlIn = s.ctlIn := rfl
@[simp] theorem State.clearRegisters_audIn (s : State) : (s.clearRegisters).audIn = s.audIn := rfl
@[simp] theorem State.clearRegisters_sched (s : State) : (s.clearRegisters).sched = s.sched := rfl
@[simp] theorem State.clearRegisters_draws (s : State) : (s.clearRegisters).draws = s.draws := rfl
@[simp] theorem State.clearRegisters_out (s : State) : (s.clearRegisters).out = s.out := rfl

/-! ### powerOn -/

@[simp] theorem State.powerOn_build (b : Build) : (State.powerOn b).build = b := rfl
@[simp] theorem State.powerOn_key (b : Build) : (State.powerOn b).key = false := rfl
@[simp] theorem State.powerOn_mute (b : Build) : (State.powerOn b).mute = false := rfl
@[simp] theorem State.powerOn_idx (b : Build) : (State.powerOn b).idx = 0 := rfl
@[simp] theorem State.powerOn_mc (b : Build) : (State.powerOn b).mc = 0 := rfl
@[simp] theorem State.powerOn_f (b : Build) : (State.powerOn b).f = List.replicate b.nch 0 := rfl
@[simp] theorem State.powerOn_ls (b : Build) : (State.powerOn b).ls = List.replicate b.nch 0 := rfl
@[simp] theorem State.powerOn_rr (b : Build) : (State.powerOn b).rr = 0 := rfl
@[simp] theorem State.powerOn_lane (b : Build) : (State.powerOn b).lane = Blocks.none := rfl
@[simp] theorem State.powerOn_ctlIn (b : Build) : (State.powerOn b).ctlIn = [] := rfl
@[simp] theorem State.powerOn_audIn (b : Build) : (State.powerOn b).audIn = [] := rfl
@[simp] theorem State.powerOn_sched (b : Build) : (State.powerOn b).sched = [] := rfl
@[simp] theorem State.powerOn_draws (b : Build) : (State.powerOn b).draws = 0 := rfl
@[simp] theorem State.powerOn_out (b : Build) : (State.powerOn b).out = [] := rfl

/-! ### Reads of the build through an update -/

@[simp] theorem State.finishControl_fAt (s : State) (r : Reply) (ch : BitVec 4) : (s.finishControl r).fAt ch = s.fAt ch := rfl
@[simp] theorem State.finishControl_lsAt (s : State) (r : Reply) (ch : BitVec 4) : (s.finishControl r).lsAt ch = s.lsAt ch := rfl
@[simp] theorem State.finishControl_channel? (s : State) (r : Reply) (ch : BitVec 4) : (s.finishControl r).channel? ch = s.channel? ch := rfl
@[simp] theorem State.writeF_lsAt (s : State) (ch c : BitVec 4) (v : BitVec 16) : (s.writeF ch v).lsAt c = s.lsAt c := rfl
@[simp] theorem State.writeLs_fAt (s : State) (ch c : BitVec 4) (v : BitVec 5) : (s.writeLs ch v).fAt c = s.fAt c := rfl
@[simp] theorem State.writeF_channel? (s : State) (ch c : BitVec 4) (v : BitVec 16) : (s.writeF ch v).channel? c = s.channel? c := rfl
@[simp] theorem State.writeLs_channel? (s : State) (ch c : BitVec 4) (v : BitVec 5) : (s.writeLs ch v).channel? c = s.channel? c := rfl

/-! ### The comparisons of two states -/

theorem State.SameRegs.refl (s : State) : s.SameRegs s := ⟨rfl, rfl, rfl, rfl, rfl, rfl, rfl, rfl⟩

theorem State.SameRegs.trans {s t u : State} (h : s.SameRegs t) (h' : t.SameRegs u) : s.SameRegs u := by
  obtain ⟨a, b, c, d, e, f, g, i⟩ := h
  obtain ⟨a', b', c', d', e', f', g', i'⟩ := h'
  exact ⟨a'.trans a, b'.trans b, c'.trans c, d'.trans d, e'.trans e, f'.trans f, g'.trans g, i'.trans i⟩

theorem State.SameQueues.refl (s : State) : s.SameQueues s := ⟨rfl, rfl, rfl⟩

/-- The ranges speak of the registers and the build only. -/
theorem State.RegsOk.of_sameRegs {s t : State} (h : s.RegsOk) (e : s.SameRegs t) : t.RegsOk := by
  obtain ⟨hb, -, -, hi, hm, hf, hl, hr⟩ := e
  have hc : ∀ ch, t.channel? ch = s.channel? ch := fun ch => by simp only [State.channel?, hb]
  have hF : ∀ ch, t.fAt ch = s.fAt ch := fun ch => by simp only [State.fAt, hf]
  have hL : ∀ ch, t.lsAt ch = s.lsAt ch := fun ch => by simp only [State.lsAt, hl]
  constructor
  · rw [hi, hb]; exact h.idx_le
  · rw [hm, hb]; exact h.mc_le
  · rw [hf, hb]; exact h.f_length
  · rw [hl, hb]; exact h.ls_length
  · intro ch x hx
    rw [hc] at hx
    have := h.channels ch x hx
    simpa only [State.ChannelOk, hF, hL, hb] using this
  · rw [hr, hb]; exact h.rr_lt

end Sys2Proof.Machine
end

