-- ==== Sys2Proof/Laws/Ops.lean ====
section
/-! SUPPORT. What the shared operations can do: fetching, reads of blocks, registers of a channel, ends of commands. -/

namespace Sys2Proof.Machine

/-- A read of the window ROM in range is the entry (R50). -/
theorem getElem?_eq_winRead {p : Params} {k : Nat} (h : k < p.n) : p.win[k]? = some (winRead p k) := by
  unfold winRead
  rw [List.getD_eq_getElem?_getD, List.getElem?_eq_getElem h]
  rfl

/-! ### Fetching -/

/-- Everything a fetch can answer: the oldest word of the one port or of the other, and the state without it. -/
theorem State.fetch_cases {s s' : State} {p : Port} {w : Word} (h : s.fetch = some (p, w, s')) :
    (∃ ws sched, p = .control ∧ s.ctlIn = w :: ws ∧ s' = { s with ctlIn := ws, sched := sched }) ∨
    (∃ a as sched, p = .audio ∧ s.audIn = a :: as ∧ w = a.word ∧
      s' = { s with audIn := as, lane := a.blocks, sched := sched }) := by
  unfold State.fetch at h
  split at h
  · cases h
  · rename_i w₀ ws h₁ h₂
    simp only [Option.some.injEq, State.takeControl, Prod.mk.injEq] at h
    obtain ⟨rfl, rfl, rfl⟩ := h
    exact .inl ⟨ws, s.sched, rfl, h₁, rfl⟩
  · rename_i a as h₁ h₂
    simp only [Option.some.injEq, State.takeAudio, Prod.mk.injEq] at h
    obtain ⟨rfl, rfl, rfl⟩ := h
    exact .inr ⟨a, as, s.sched, rfl, h₂, rfl, rfl⟩
  · rename_i w₀ ws a as h₁ h₂
    split at h
    · simp only [Option.some.injEq, State.takeControl, Prod.mk.injEq] at h
      obtain ⟨rfl, rfl, rfl⟩ := h
      exact .inl ⟨ws, s.sched.tail, rfl, h₁, rfl⟩
    · simp only [Option.some.injEq, State.takeAudio, Prod.mk.injEq] at h
      obtain ⟨rfl, rfl, rfl⟩ := h
      exact .inr ⟨a, as, s.sched.tail, rfl, h₂, rfl, rfl⟩

/-- A fetch changes no register. -/
theorem State.fetch_sameRegs {s s' : State} {p : Port} {w : Word} (h : s.fetch = some (p, w, s')) : s.SameRegs s' := by
  obtain ⟨ws, q, rfl, h, rfl⟩ | ⟨a, as, q, rfl, h, rfl, rfl⟩ := s.fetch_cases h <;> exact ⟨rfl, rfl, rfl, rfl, rfl, rfl, rfl, rfl⟩

/-- A fetch hands out nothing. -/
theorem State.fetch_out {s s' : State} {p : Port} {w : Word} (h : s.fetch = some (p, w, s')) : s'.out = s.out ∧ s'.draws = s.draws := by
  obtain ⟨ws, q, rfl, h, rfl⟩ | ⟨a, as, q, rfl, h, rfl, rfl⟩ := s.fetch_cases h <;> exact ⟨rfl, rfl⟩

/-- A word taken from the control port leaves the lane alone. -/
theorem State.fetch_control_lane {s s' : State} {w : Word} (h : s.fetch = some (.control, w, s')) : s'.lane = s.lane := by
  obtain ⟨ws, q, -, h, rfl⟩ | ⟨a, as, q, hp, -⟩ := s.fetch_cases h
  · rfl
  · cases hp

/-- Nothing is fetched exactly when no word waits. -/
theorem State.fetch_eq_none {s : State} : s.fetch = none ↔ s.ctlIn = [] ∧ s.audIn = [] := by
  unfold State.fetch
  split <;> simp_all
  split <;> simp

/-! ### Blocks -/

theorem State.sample_of_get {s : State} {n : BlockName} {xs : List Sample} {i : Nat} {x : Sample}
    (h : s.lane.get n = some xs) (hi : xs[i]? = some x) : s.sample n i = x := by
  simp [State.sample, h, hi]

@[simp] theorem State.samples_length (s : State) (n : BlockName) : (s.samples n).length = s.build.blockLen := by
  simp [State.samples]

theorem State.samples_getElem? (s : State) (n : BlockName) {i : Nat} (h : i < s.build.blockLen) :
    (s.samples n)[i]? = some (s.sample n i) := by
  simp [State.samples, h]

/-- A block with exactly L samples is read as it is, with no free value. -/
theorem State.samples_of_get {s : State} {n : BlockName} {xs : List Sample} (h : s.lane.get n = some xs)
    (hl : xs.length = s.build.blockLen) : s.samples n = xs := by
  refine List.ext_getElem? fun i => ?_
  by_cases hi : i < s.build.blockLen
  · rw [s.samples_getElem? n hi, List.getElem?_eq_getElem (by omega), s.sample_of_get h (List.getElem?_eq_getElem (by omega))]
  · rw [List.getElem?_eq_none (by simp; omega), List.getElem?_eq_none (by omega)]

theorem mem_releases {t l r : Bool} {b : Blocks} {n : BlockName} :
    n ∈ releases t l r b ↔ (Instr.mixCycle t l r).marks n = true ∨ b.has n = true := by
  cases n <;> simp [releases, BlockName.all]

theorem mem_blockNames {b : Blocks} {n : BlockName} : n ∈ blockNames b ↔ b.has n = true := by
  cases n <;> simp [blockNames, BlockName.all]

theorem releases_nodup (t l r : Bool) (b : Blocks) : (releases t l r b).Nodup :=
  List.Nodup.filter _ (by decide)

theorem blockNames_nodup (b : Blocks) : (blockNames b).Nodup :=
  List.Nodup.filter _ (by decide)

/-! ### Registers of a channel -/

/-- A channel of the build has a number below NCH. -/
theorem State.lt_nch_of_channel? {s : State} {ch : BitVec 4} {x : Channel} (h : s.channel? ch = some x) : ch.toNat < s.build.nch := by
  have := (List.getElem?_eq_some_iff.mp h).1
  exact this

theorem State.mem_chans_of_channel? {s : State} {ch : BitVec 4} {x : Channel} (h : s.channel? ch = some x) : x ∈ s.build.chans :=
  List.mem_of_getElem? h

theorem State.channel?_eq_none {s : State} {ch : BitVec 4} : s.channel? ch = none ↔ s.build.nch ≤ ch.toNat := by
  simp [State.channel?, Params.nch]

theorem State.enabled?_eq_some {s : State} {ch : BitVec 4} {x : Channel} :
    s.enabled? ch = some x ↔ s.channel? ch = some x ∧ x.en = true := by
  simp [State.enabled?, Option.filter_eq_some_iff]

theorem State.enabled?_eq_none {s : State} {ch : BitVec 4} :
    s.enabled? ch = none ↔ s.build.nch ≤ ch.toNat ∨ ∃ x, s.channel? ch = some x ∧ x.en = false := by
  rw [← State.channel?_eq_none]
  unfold State.enabled?
  cases s.channel? ch <;> simp

theorem State.writeF_fAt {s : State} {ch c : BitVec 4} {v : BitVec 16} (h : c.toNat < s.f.length) :
    (s.writeF ch v).fAt c = if c = ch then v else s.fAt c := by
  simp only [State.fAt, State.writeF_f, List.getD_eq_getElem?_getD, List.getElem?_set, BitVec.toNat_inj]
  by_cases e : ch = c
  · subst e; simp [h]
  · simp [e, Ne.symm e]

theorem State.writeLs_lsAt {s : State} {ch c : BitVec 4} {v : BitVec 5} (h : c.toNat < s.ls.length) :
    (s.writeLs ch v).lsAt c = if c = ch then v else s.lsAt c := by
  simp only [State.lsAt, State.writeLs_ls, List.getD_eq_getElem?_getD, List.getElem?_set, BitVec.toNat_inj]
  by_cases e : ch = c
  · subst e; simp [h]
  · simp [e, Ne.symm e]

/-! ### The gate -/

theorem State.gated_eq (s : State) : s.gated = (s.mute || decide (0 < s.mc.toNat)) := by
  unfold State.gated gate
  cases s.mute <;> by_cases h : 0 < s.mc.toNat <;> simp [h]

theorem State.nextMc_eq (s : State) : s.nextMc =
    if s.mute then BitVec.ofNat 16 s.build.trailBlocks else if 0 < s.mc.toNat then s.mc - 1 else s.mc := by
  unfold State.nextMc gate
  cases s.mute <;> by_cases h : 0 < s.mc.toNat <;> simp [h]

/-- MC after an executed cycle, as a number: M while MUTE is set, else one less, and 0 stays 0 (R103). -/
theorem State.nextMc_toNat (s : State) :
    s.nextMc.toNat = if s.mute then s.build.trailBlocks else s.mc.toNat - 1 := by
  rw [s.nextMc_eq]
  have hM := s.build.trailBlocks_le
  split
  · simp only [BitVec.toNat_ofNat]; omega
  · split <;> bv_omega

end Sys2Proof.Machine
end

