-- ==== Sys2Proof/Laws/Denoiser.lean ====
section
/-! SUPPORT. What an update of a denoiser channel can do. -/

namespace Sys2Proof.Machine

/-- A step of a lawful channel is below C. -/
theorem quantize_lt {x : Channel} (h : 2 ≤ x.c) (f : Nat) : quantize x f < x.c := by
  unfold quantize; omega

theorem reports_iff (x : Channel) (ls f : Nat) :
    reports x ls f = true ↔ x.h < ((f : Int) - (mid x ls : Int)).natAbs ∧ quantize x f ≠ ls := by
  simp [reports, inBand]

@[simp] theorem State.filterChannel_out (s : State) (ch : BitVec 4) (raw : BitVec 16) : (s.filterChannel ch raw).out = s.out := rfl
@[simp] theorem State.filterChannel_lsAt (s : State) (ch c : BitVec 4) (raw : BitVec 16) : (s.filterChannel ch raw).lsAt c = s.lsAt c := rfl
@[simp] theorem State.filterChannel_ls (s : State) (ch : BitVec 4) (raw : BitVec 16) : (s.filterChannel ch raw).ls = s.ls := rfl
@[simp] theorem State.filterChannel_build (s : State) (ch : BitVec 4) (raw : BitVec 16) : (s.filterChannel ch raw).build = s.build := rfl

/-- An absent or disabled channel: the response "no change" and nothing else (R144). -/
theorem State.updateChannel_off {s : State} {ch : BitVec 4} (h : s.enabled? ch = none) (raw : BitVec 16) :
    s.updateChannel ch raw = s.finishControl (.respond (drWord ch false 0)) := by
  simp [State.updateChannel, h]

/-- An enabled channel: the filter runs, then the report decision (R144). -/
theorem State.updateChannel_on {s : State} {ch : BitVec 4} {x : Channel} (h : s.enabled? ch = some x) (raw : BitVec 16) :
    s.updateChannel ch raw = (s.filterChannel ch raw).reportChannel x ch := by
  simp [State.updateChannel, h]

/-- The two ends of a report decision. -/
theorem State.reportChannel_cases (s : State) (x : Channel) (ch : BitVec 4) :
    (reports x (s.lsAt ch).toNat (s.fAt ch).toNat = true ∧
      s.reportChannel x ch = (s.writeLs ch (BitVec.ofNat 5 (quantize x (s.fAt ch).toNat))).finishControl
        (.respond (drWord ch true (BitVec.ofNat 5 (quantize x (s.fAt ch).toNat))))) ∨
    (reports x (s.lsAt ch).toNat (s.fAt ch).toNat = false ∧
      s.reportChannel x ch = s.finishControl (.respond (drWord ch false 0))) := by
  unfold State.reportChannel
  cases h : reports x (s.lsAt ch).toNat (s.fAt ch).toNat <;> simp

theorem exec_denoiseUpdate (ch : BitVec 4) (raw : BitVec 16) (s : State) :
    exec (.denoiseUpdate ch raw) s = .next (s.updateChannel ch raw) := rfl

theorem exec_pollTick (raw : BitVec 16) (s : State) :
    exec (.pollTick raw) s = .next ({ s with rr := s.nextRr }.updateChannel s.rr raw) := rfl

/-! ### Sequences of updates, one update at a time -/

@[simp] theorem runUpdates_nil (ch : BitVec 4) (s : State) : runUpdates ch s [] = s := rfl

theorem runUpdates_cons (ch : BitVec 4) (s : State) (raw : BitVec 16) (raws : List (BitVec 16)) :
    runUpdates ch s (raw :: raws) = runUpdates ch (s.updateChannel ch raw) raws := rfl

@[simp] theorem filteredRun_nil (ch : BitVec 4) (s : State) : filteredRun ch s [] = [] := rfl

theorem filteredRun_cons (ch : BitVec 4) (s : State) (raw : BitVec 16) (raws : List (BitVec 16)) :
    filteredRun ch s (raw :: raws) =
      ((s.updateChannel ch raw).fAt ch).toNat :: filteredRun ch (s.updateChannel ch raw) raws := rfl

@[simp] theorem reportedRun_nil (ch : BitVec 4) (s : State) : reportedRun ch s [] = [] := rfl

theorem reportedRun_cons (ch : BitVec 4) (s : State) (raw : BitVec 16) (raws : List (BitVec 16)) :
    reportedRun ch s (raw :: raws) =
      if (s.updateChannel ch raw).lsAt ch = s.lsAt ch then reportedRun ch (s.updateChannel ch raw) raws
      else ((s.updateChannel ch raw).lsAt ch).toNat :: reportedRun ch (s.updateChannel ch raw) raws := rfl

@[simp] theorem runPolls_nil (s : State) : runPolls s [] = s := rfl

theorem runPolls_cons (s : State) (raw : BitVec 16) (raws : List (BitVec 16)) :
    runPolls s (raw :: raws) = runPolls ({ s with rr := s.nextRr }.updateChannel s.rr raw) raws := rfl

/-- RR steps round within 0..NCH−1, as a number (R145). -/
theorem State.nextRr_toNat (s : State) : s.nextRr.toNat = (s.rr.toNat + 1) % s.build.nch := by
  have h1 := s.build.one_le_nch
  have h2 := s.build.nch_le
  have h3 : (s.rr.toNat + 1) % s.build.nch < s.build.nch := Nat.mod_lt _ h1
  simp only [State.nextRr, BitVec.toNat_ofNat]
  exact Nat.mod_eq_of_lt (by omega)

end Sys2Proof.Machine
end

