-- ==== Sys2Proof/Laws/Mixer.lean ====
section
/-! SUPPORT. What ENV, the loop over a tone block and MIX_CYCLE can do. -/

namespace Sys2Proof.Machine

/-- The index after one sample (R102), as a number. -/
theorem env_index (p : Params) (k : Bool) (idx : Nat) (s : Sample) :
    (env p k idx s).2 = if k then (if idx < p.n then idx + 1 else p.n) else idx - 1 := by
  unfold env
  cases k <;> simp only [Bool.false_eq_true, if_false, if_true]
  · split
    · rfl
    · simp only; omega
  · split <;> rfl

@[simp] theorem envBlock_nil (p : Params) (k : Bool) (idx : Nat) : envBlock p k idx [] = ([], idx) := rfl

theorem envBlock_cons (p : Params) (k : Bool) (idx : Nat) (s : Sample) (ss : List Sample) :
    envBlock p k idx (s :: ss) =
      ((env p k idx s).1 :: (envBlock p k (env p k idx s).2 ss).1, (envBlock p k (env p k idx s).2 ss).2) := rfl

@[simp] theorem envBlock_length (p : Params) (k : Bool) (idx : Nat) (ss : List Sample) :
    (envBlock p k idx ss).1.length = ss.length := by
  induction ss generalizing idx with
  | nil => rfl
  | cons s ss ih => simp [envBlock_cons, ih]

/-! ### MIX_CYCLE, one equation for each path -/

theorem exec_mixCycle_skip (l r : Bool) (s : State) :
    exec (.mixCycle false l r) s = .next (s.finishAudio .skip (releases false l r s.lane)) := rfl

theorem exec_mixCycle_tone (l r : Bool) (s : State) (h : s.isTx = true) :
    exec (.mixCycle true l r) s = .next ({ s with mc := s.nextMc, idx := BitVec.ofNat 12 s.toneOut.2 }.finishAudio
      (.emit s.toneOut.1 s.toneOut.1) (releases true l r s.lane)) := by
  simp only [exec, execMixCycle, h, if_true]

theorem exec_mixCycle_pass (l r : Bool) (s : State) (h : s.isTx = false) :
    exec (.mixCycle true l r) s = .next ({ s with mc := s.nextMc, idx := 0 }.finishAudio
      (.emit (s.passOut l .inl) (s.passOut r .inr)) (releases true l r s.lane)) := by
  simp only [exec, execMixCycle, h, if_true]; rfl

theorem State.isTx_iff (s : State) : s.isTx = true ↔ s.key = true ∨ 0 < s.idx.toNat := by
  simp [State.isTx]

theorem State.isTx_eq_false (s : State) : s.isTx = false ↔ s.key = false ∧ s.idx.toNat = 0 := by
  simp [State.isTx]

/-- The pass-through path as a list: the samples, or silence. -/
theorem State.passOut_eq (s : State) (present : Bool) (n : BlockName) :
    s.passOut present n = if present && !s.gated then s.samples n else List.replicate s.build.blockLen 0 := rfl

@[simp] theorem State.passOut_length (s : State) (present : Bool) (n : BlockName) :
    (s.passOut present n).length = s.build.blockLen := by
  rw [s.passOut_eq]; split <;> simp

@[simp] theorem State.toneOut_length (s : State) : s.toneOut.1.length = s.build.blockLen := by
  simp [State.toneOut]

end Sys2Proof.Machine
end

