-- ==== Sys2Proof/Laws/PerInstr.lean ====
section
/-! SUPPORT. Statements about every instruction, one lemma per constructor. -/

namespace Sys2Proof.Laws

/-- R79: the word of an instruction matches the instruction's own row of the opcode map. -/
def Encoding.Statement (i : Instr) : Prop := encode i &&& i.op.mask = i.op.matchWord

namespace Encoding

theorem nop : Statement .nop := rfl
theorem setKey (v : Bool) : Statement (.setKey v) := by cases v <;> rfl
theorem setMute (v : Bool) : Statement (.setMute v) := by cases v <;> rfl
theorem denoiseUpdate (ch : BitVec 4) (raw : BitVec 16) : Statement (.denoiseUpdate ch raw) := by
  refine BitVec.eq_of_getLsbD_eq fun i hi => ?_
  simp only [encode, place, Instr.op, Op.mask, Op.matchWord]
  interval_cases i <;> simp
theorem pollTick (raw : BitVec 16) : Statement (.pollTick raw) := by
  refine BitVec.eq_of_getLsbD_eq fun i hi => ?_
  simp only [encode, place, Instr.op, Op.mask, Op.matchWord]
  interval_cases i <;> simp
theorem mixCycle (t l r : Bool) : Statement (.mixCycle t l r) := by cases t <;> cases l <;> cases r <;> rfl
theorem readStatus : Statement .readStatus := rfl
theorem readChannel (ch : BitVec 4) : Statement (.readChannel ch) := by revert ch; unfold Statement; decide
theorem reset : Statement .reset := rfl

end Encoding

end Sys2Proof.Laws
end

