-- ==== Sys2Proof/Laws/Step.lean ====
section
/-! SUPPORT. What a step can do: wait, ignore a word, or run the instruction the word decodes to. -/

namespace Sys2Proof.Machine

/-- Every instruction answers a next state. -/
theorem exec_next (i : Instr) (s : State) : ∃ t, exec i s = .next t := by
  cases i with
  | mixCycle t l r =>
    cases t
    · exact ⟨_, exec_mixCycle_skip l r s⟩
    · cases h : s.isTx
      · exact ⟨_, exec_mixCycle_pass l r s h⟩
      · exact ⟨_, exec_mixCycle_tone l r s h⟩
  | _ => exact ⟨_, rfl⟩

/-- The state after a cycle is the one its MIX_CYCLE answers. -/
theorem exec_cycle (c : Cycle) (s : State) : exec (.mixCycle c.t c.l c.r) (c.enter s) = .next (c.run s) := by
  obtain ⟨t, h⟩ := exec_next (.mixCycle c.t c.l c.r) (c.enter s)
  unfold Cycle.run
  rw [h]
  rfl

/-- Everything a step can answer. -/
theorem step_cases {s t : State} (h : step s = .next t) :
    (s.fetch = none ∧ t = s) ∨
    (∃ p w s', s.fetch = some (p, w, s') ∧ (∀ i, decode w = .ok i → i.port ≠ p) ∧ t = s'.ignoreWord p) ∨
    (∃ p w s' i, s.fetch = some (p, w, s') ∧ decode w = .ok i ∧ i.port = p ∧ exec i s' = .next t) := by
  unfold step at h
  split at h
  · rename_i hf
    cases h
    exact .inl ⟨hf, rfl⟩
  · rename_i p w s' hf
    split at h
    · rename_i e he
      cases h
      exact .inr (.inl ⟨p, w, s', hf, (fun i hi => by rw [he] at hi; cases hi), rfl⟩)
    · rename_i i hi
      split at h
      · rename_i hp
        exact .inr (.inr ⟨p, w, s', i, hf, hi, hp, h⟩)
      · rename_i hp
        cases h
        exact .inr (.inl ⟨p, w, s', hf, (fun j hj => by rw [hi] at hj; cases hj; exact hp), rfl⟩)

/-- A word that no instruction of its port answers is ignored. -/
theorem step_ignore {s s' : State} {p : Port} {w : Word} (hf : s.fetch = some (p, w, s'))
    (h : ∀ i, decode w = .ok i → i.port ≠ p) : step s = .next (s'.ignoreWord p) := by
  unfold step
  simp only [hf]
  split
  · rfl
  · rename_i i hi
    rw [if_neg (h i hi)]

end Sys2Proof.Machine
end

