-- ==== Sys2Proof/Tests/Slice0.lean ====
section
/-! SUPPORT. Tests with expected results from spec/95_test_vectors.md (its vector's name stands in each comment) and from the worked examples
of the rules, and one named witness for the hypotheses of each statement in Certificates/Slice0/Obligations.lean. -/

namespace Sys2Proof.Tests

open Sys2Proof.Machine

/-! ### The builds of 95_test_vectors.md -/

/-- TOY, with the channels of P4: EN = [1, 1, 0], C = [21, 32, 21]. -/
def toyParams : Params where
  blockLen := 4
  win := [0, 0x20000000, 0x40000000, 0x60000000]
  trailBlocks := 2
  chans := [Channel.standard 16368 21, Channel.standard 16368 32, { Channel.standard 16368 21 with en := false }]
  ew := 16
  rawMax := 1023

def toyBuild : Build := { toyParams with lawful_eq := by decide }

def toy : State := State.powerOn toyBuild

/-- The blocks of section 2.3. -/
def toyBlocks : Blocks :=
  ⟨some [1000, 1000, 1000, 1000], some [11, 12, 13, 14], some [-21, -22, -23, -24]⟩

/-- One step with this word alone on the control port. -/
def ctl (s : State) (w : Word) : State := stateAfter s (step { s with ctlIn := [w], audIn := [] })

/-- One step with this word and the blocks of section 2.3 alone on the audio port. -/
def aud (s : State) (w : Word) (blocks : Blocks := toyBlocks) : State :=
  stateAfter s (step { s with ctlIn := [], audIn := [⟨w, blocks⟩] })

def lastReply (s : State) : Option Reply := s.out.getLast?.map Event.reply

/-- Channel 0 with F and LS at these values. -/
def chan0 (f : BitVec 16) (ls : BitVec 5) : State := { toy with f := [f, 0, 0], ls := [ls, 0, 0] }

/-! ### Decoding: words written out from the formats R72 to R77 -/

theorem test_decode_nop : decode 0b0000_0000_0000_0000_0000_0000_0000_0000#32 = .ok .nop := by decide
theorem test_decode_setKey : decode 0b0001_0000_0000_0000_0000_0000_0000_0001#32 = .ok (.setKey true) := by decide
theorem test_decode_setMute : decode 0b0010_0000_0000_0000_0000_0000_0000_0001#32 = .ok (.setMute true) := by decide
theorem test_decode_denoiseUpdate : decode 0b0011_0101_0000_0000_0000_0011_1111_1110#32 = .ok (.denoiseUpdate 5 1022) := by decide
theorem test_decode_pollTick : decode 0b0100_0000_0000_0000_1000_0000_0000_0001#32 = .ok (.pollTick 32769) := by decide
theorem test_decode_mixCycle : decode 0b0101_0000_0000_0000_0000_0000_0000_0101#32 = .ok (.mixCycle true false true) := by decide
theorem test_decode_mixCycle_inl : decode 0b0101_0000_0000_0000_0000_0000_0000_0010#32 = .ok (.mixCycle false true false) := by decide
theorem test_decode_readStatus : decode 0b0110_0000_0000_0000_0000_0000_0000_0000#32 = .ok .readStatus := by decide
theorem test_decode_readChannel : decode 0b0111_1001_0000_0000_0000_0000_0000_0000#32 = .ok (.readChannel 9) := by decide
theorem test_decode_reset : decode 0b1111_0000_0000_0000_0000_0000_0000_0000#32 = .ok .reset := by decide

/-- S9 and S10, X17, K7, DN-B17, P-6: reserved encodings. -/
theorem test_decode_reserved :
    [0x80000000, 0xE0000000, 0x00000001, 0x60000001, 0x70000001, 0xF0000001, 0x50000008, 0x10000003, 0x30010000,
      0x40010000].all (fun w => (decode w).toOption.isNone) = true := by decide

/-- R53: the least significant byte first. -/
theorem test_decodeBytes : (decodeBytes [0xFF, 0x03, 0x00, 0x30, 0x77]).toOption = some (.denoiseUpdate 0 1023, [0x77]) := by decide

theorem test_decodeTableWord : decodeTableWord 32 0x71000000 = some (.readChannel 1) := by decide

/-! ### WellFormed: a term for each check, which the check refuses -/

theorem test_wellFormed_accepts : (Instr.mixCycle true true true).wellFormed toyParams .audio toyBlocks = true := by decide
theorem test_wellFormed_port : (Instr.mixCycle true true true).wellFormed toyParams .control toyBlocks = false := by decide
theorem test_wellFormed_marks : (Instr.mixCycle true false true).wellFormed toyParams .audio toyBlocks = false := by decide
theorem test_wellFormed_length :
    (Instr.mixCycle true false false).wellFormed toyParams .audio ⟨some [1000], none, none⟩ = false := by decide
theorem test_wellFormed_raw : (Instr.pollTick 1024).wellFormed toyParams .control Blocks.none = false := by decide

/-! ### The laws of a build refuse what breaks them (R6, R7) -/

theorem test_lawful_rejects :
    [{ toyParams with blockLen := 0 }, { toyParams with win := [] }, { toyParams with win := [1, 2] },
     { toyParams with win := [0, 2, 1] }, { toyParams with win := [0, 0x80000000] }, { toyParams with trailBlocks := 65536 },
     { toyParams with chans := [] }, { toyParams with ew := 12 }, { toyParams with rawMax := 0 }, { toyParams with rawMax := 4096 },
     { toyParams with chans := [⟨true, 21, 779, 0⟩] }].all (fun p => !p.lawful) = true := by decide

/-- R6: the default widths and margins. -/
theorem test_standard_channels :
    Channel.standard 16368 21 = ⟨true, 21, 780, 390⟩ ∧ Channel.standard 16368 32 = ⟨true, 32, 512, 256⟩ := by decide

/-! ### One step of each instruction -/

/-- G6, G13, G18, G20. -/
theorem test_gain : gain (-1) 1 = -1 ∧ gain 12345 0x7FFFFFFF = 12344 ∧ gain 32767 0x40000000 = 16383 ∧ gain (-3) 0x40000000 = -2 := by
  decide

/-- X5: the ramp ends inside the block, then silence. -/
theorem test_mixCycle_rampDown :
    let s := aud { toy with idx := 2 } 0x50000007
    lastReply s = some (.emit [250, 0, 0, 0] [250, 0, 0, 0]) ∧ s.idx = 0 := by decide

/-- X11 and X7: MUTE does not gate the tone, MC still reloads, negative samples floor. -/
theorem test_mixCycle_rampUp :
    let s := aud { toy with key := true, mute := true } 0x50000001 ⟨some [-1000, -1000, -1, -1], none, none⟩
    lastReply s = some (.emit [0, -250, -1, -1] [0, -250, -1, -1]) ∧ s.idx = 4 ∧ s.mc = 2 := by decide

/-- X12: a cycle without its tone block is skipped. -/
theorem test_mixCycle_skip :
    let s := aud { toy with key := true, idx := 3, mc := 2 } 0x50000006
    lastReply s = some .skip ∧ s.idx = 3 ∧ s.mc = 2 ∧ s.lane = Blocks.none := by decide

/-- X13 and X9: a missing block reads as silence, and a trailing block is silenced. -/
theorem test_mixCycle_pass :
    lastReply (aud toy 0x50000005 ⟨some [0, 0, 0, 0], none, some [-21, -22, -23, -24]⟩) = some (.emit [0, 0, 0, 0] [-21, -22, -23, -24]) ∧
    lastReply (aud { toy with mc := 1 } 0x50000007) = some (.emit [0, 0, 0, 0] [0, 0, 0, 0]) := by decide

/-- X17: an ignored audio word releases its blocks unread. -/
theorem test_ignored_audio : (aud toy 0x50000008).out = [⟨.audio, .ignore, [.tone, .inl, .inr]⟩] := by decide

/-- S11 and S12: the wrong port. -/
theorem test_wrong_port :
    lastReply (ctl toy 0x50000007) = some .ignore ∧ lastReply (aud toy 0x10000001 Blocks.none) = some .ignore ∧
    (aud toy 0x10000001 Blocks.none).key = false := by decide

/-- K1 and K3. -/
theorem test_setKey : (ctl toy 0x10000001).key = true ∧ (ctl { toy with key := true } 0x10000000).key = false := by decide

/-- K4: MC is unchanged. -/
theorem test_setMute : let s := ctl { toy with mc := 1 } 0x20000001
    s.mute = true ∧ s.mc = 1 ∧ lastReply s = some .done := by decide

/-- DN-B3 and DN-B5: the edge of the band. -/
theorem test_denoiseUpdate_band :
    lastReply (ctl (chan0 780 0) 0x30000031) = some (.respond 0x00000000) ∧
    lastReply (ctl (chan0 780 0) 0x30000032) = some (.respond 0x00000101) ∧ (ctl (chan0 780 0) 0x30000032).f = [781, 0, 0] := by decide

/-- DN-B8, DN-B15 and DN-B16: the clamp, a disabled and an absent channel. -/
theorem test_denoiseUpdate_corners :
    (ctl toy 0x3000FFFF).f = [1023, 0, 0] ∧ lastReply (ctl toy 0x320003FF) = some (.respond 0x00002000) ∧
    (ctl toy 0x320003FF).f = [0, 0, 0] ∧ lastReply (ctl toy 0x350003FF) = some (.respond 0x00005000) := by decide

/-- P-2. -/
theorem test_pollTick : let s := ctl { toy with rr := 1 } 0x400003FF
    lastReply s = some (.respond 0x00001101) ∧ s.rr = 2 ∧ s.f = [0, 1023, 0] := by decide

/-- P-3: a disabled channel takes its tick, and RR wraps. -/
theorem test_pollTick_disabled : let s := ctl { toy with rr := 2 } 0x400003FF
    lastReply s = some (.respond 0x00002000) ∧ s.rr = 0 ∧ s.f = [0, 0, 0] := by decide

/-- S3. -/
theorem test_readStatus :
    lastReply (ctl { toy with mute := true, mc := 2, idx := 4, key := true } 0x60000000) = some (.respond 0x00020043) := by decide

/-- S4, S6 and S7. -/
theorem test_readChannel :
    lastReply (ctl (chan0 1982 2) 0x70000000) = some (.respond 0x010207BE) ∧
    lastReply (ctl toy 0x72000000) = some (.respond 0x20000000) ∧ lastReply (ctl toy 0x75000000) = some (.respond 0x50000000) := by decide

/-- S8. -/
theorem test_reset :
    let s := ctl { chan0 1982 2 with key := true, mute := true, idx := 3, mc := 2, rr := 1 } 0xF0000000
    s.SameRegs toy ∧ lastReply s = some .done := by
  refine ⟨?_, ?_⟩
  · refine ⟨?_, ?_, ?_, ?_, ?_, ?_, ?_, ?_⟩ <;> rfl
  · decide

/-- S1. -/
theorem test_nop : (ctl (chan0 1982 2) 0x00000000).f = [1982, 0, 0] ∧ lastReply (ctl toy 0x00000000) = some .done := by decide

/-- A word placed from outside runs at the next step, on either port. -/
theorem test_withFetchWord :
    lastReply (stateAfter toy (step (toy.withFetchWord 32 0x60000000))) = some (.respond 0) ∧
    lastReply (stateAfter toy (step ({ toy with ctlIn := [0x60000000] }.withFetchWord 32 0x50000007))) =
      some (.emit [0, 0, 0, 0] [0, 0, 0, 0]) := by decide

/-! ### Assembler text (R83, R84) -/

theorem test_assemble :
    assembleLine "ctl: DENOISE_UPDATE 5, 0x3FF ; absent".toList = some (some .control, .denoiseUpdate 5 1023) ∧
    assembleLine "audio: MIX_CYCLE T|R".toList = some (some .audio, .mixCycle true false true) ∧
    assembleLine "MIX_CYCLE -".toList = some (none, .mixCycle false false false) := by decide

theorem test_assemble_rejects :
    assembleLine "SET_KEY 2".toList = none ∧ assembleLine "READ_CHANNEL 16".toList = none ∧
    assembleLine "POLL_TICK 65536".toList = none ∧ assembleLine "MIX_CYCLE T|T".toList = none := by decide

/-! ### Witnesses: states and operands that meet the hypotheses of each statement -/

/-- A check that a concrete state's registers are in range. -/
def regsCheck (s : State) : Bool :=
  decide (s.idx.toNat ≤ s.build.n) && decide (s.mc.toNat ≤ s.build.trailBlocks) && decide (s.f.length = s.build.nch)
    && decide (s.ls.length = s.build.nch) && decide (s.rr.toNat < s.build.nch)
    && decide (∀ ch : BitVec 4, (s.channel? ch).all (fun x =>
      decide ((s.fAt ch).toNat ≤ s.build.fmax) && decide ((s.lsAt ch).toNat < x.c)
        && (x.en || (decide (s.fAt ch = 0) && decide (s.lsAt ch = 0)))) = true)

theorem regsOk_of_check {s : State} (h : regsCheck s = true) : s.RegsOk := by
  simp only [regsCheck, Bool.and_eq_true, decide_eq_true_eq] at h
  obtain ⟨⟨⟨⟨⟨h1, h2⟩, h3⟩, h4⟩, h5⟩, h6⟩ := h
  refine ⟨h1, h2, h3, h4, fun ch x hx => ?_, h5⟩
  have := h6 ch
  rw [hx] at this
  simp only [Option.all_some, Bool.and_eq_true, decide_eq_true_eq, Bool.or_eq_true] at this
  refine ⟨this.1.1, this.1.2, fun he => ?_⟩
  rcases this.2 with h | h
  · rw [he] at h; cases h
  · exact h

theorem toy_regsOk : toy.RegsOk := regsOk_of_check (by decide)

/-- A state with a word waiting on each port, the audio port granted first. -/
def busy : State := { toy with ctlIn := [0x10000001], audIn := [⟨0x50000007, toyBlocks⟩], sched := [.audio] }

/-- EncodeOfDecode, DecoderTakesFourBytes, DecodeAgreesWithOpcodeMap: a defined word at the top of its fields, and one that matches no row. -/
theorem witness_decode :
    decode 0x3F00FFFF = .ok (.denoiseUpdate 15 65535) ∧ (decodeBytes [0xFF, 0xFF, 0x00, 0x3F]).toOption = some (.denoiseUpdate 15 65535, []) ∧
    (0x3F00FFFF : Word) &&& Op.mask .denoiseUpdate = Op.matchWord .denoiseUpdate ∧
    Op.all.all (fun o => !o.matches 0xE0000000) = true ∧ (decode 0xE0000000).toOption = none := by decide

/-- AssemblerOperandForms: operands at the ends of their ranges. -/
theorem witness_operands :
    number "0xFFFF".toList = some 65535 ∧ number "15".toList = some 15 ∧ number "1".toList = some 1 ∧
    assembleOp "DENOISE_UPDATE".toList ["15".toList, "0xFFFF".toList] = some (.denoiseUpdate 15 65535) ∧
    (∀ d ∈ [1, 0, 9], d < 10) ∧ [1, 0, 9].map Nat.digitChar = "109".toList ∧
    (∀ d ∈ [3, 15, 15], d < 16) ∧ [3, 15, 15].map Nat.digitChar = "3ff".toList ∧
    assembleOp "MIX_CYCLE".toList ["L|R".toList] = some (.mixCycle false true true) := by decide

/-- AssemblerLines: a word and two operands, and a mnemonic that stands alone. -/
theorem witness_lines :
    (∀ word ∈ [['O', 'P'], ['9'], ['0', 'x', 'f']], word ≠ [] ∧ ∀ c ∈ word, isBlank c = false ∧ c ≠ ',' ∧ c ≠ ';') ∧
    (∀ word ∈ [['N', 'O', 'P']], word ≠ [] ∧ ∀ c ∈ word, isBlank c = false ∧ c ≠ ',' ∧ c ≠ ';') := by
  simp [isBlank]

/-- ReservedEncodingsAreIgnored, IgnoredWordsChangeNothing: a reserved word fetched from either port. -/
theorem witness_reserved :
    (decode 0x50000008).toOption = none ∧
    (∃ s', { toy with ctlIn := [0x50000008] : State }.fetch = some (.control, 0x50000008, s')) ∧
    (∃ s', { toy with audIn := [⟨0x50000008, toyBlocks⟩] : State }.fetch = some (.audio, 0x50000008, s')) :=
  ⟨by decide, ⟨_, rfl⟩, ⟨_, rfl⟩⟩

/-- StepRunsDecodedInstruction, PortsAcceptTheirOwnCommands (own port), EveryCommandEndsOnce, EveryBlockIsReleasedOnce and
RegistersChangeOnlyByTheirOwner: a conflict won by the audio port, and a word alone on the control port. -/
theorem witness_fetch :
    (∃ s', busy.fetch = some (.audio, 0x50000007, s')) ∧ decode 0x50000007 = .ok (.mixCycle true true true) ∧
    (Instr.mixCycle true true true).port = .audio ∧
    (∃ s', { toy with ctlIn := [0x10000001] : State }.fetch = some (.control, 0x10000001, s')) ∧
    decode 0x10000001 = .ok (.setKey true) ∧ (Instr.setKey true).port = .control :=
  ⟨⟨_, rfl⟩, by decide, rfl, ⟨_, rfl⟩, by decide, rfl⟩

/-- PortsAcceptTheirOwnCommands, IgnoredWordsChangeNothing: a defined word on the other port. -/
theorem witness_wrong_port :
    (∃ s', { toy with ctlIn := [0x50000007] : State }.fetch = some (.control, 0x50000007, s')) ∧
    decode 0x50000007 = .ok (.mixCycle true true true) ∧ (Instr.mixCycle true true true).port ≠ .control :=
  ⟨⟨_, rfl⟩, by decide, by decide⟩

/-- IdleBlockWaits. -/
theorem witness_idle : toy.ctlIn = [] ∧ toy.audIn = [] := ⟨rfl, rfl⟩

/-- PortsKeepTheirOrder, BuildNeverChanges, StepKeepsInvariant: a step that runs a command, from a state that meets the invariant. -/
theorem witness_step : busy.Inv ∧ ∃ t, step busy = .next t :=
  ⟨⟨regsOk_of_check (by decide), rfl⟩, ⟨_, rfl⟩⟩

/-- EveryInterleavingIsPossible: the order in which the control port wins, against the schedule of `busy`. -/
theorem witness_interleaving :
    [Port.control, Port.audio].count .control = busy.ctlIn.length ∧ [Port.control, Port.audio].count .audio = busy.audIn.length := by decide

/-- ResetValues. -/
theorem witness_reset_build : (chan0 1982 2).build = toyBuild := rfl

/-- GainIsExactFloor, GainRange: the largest window entry and the smallest sample, a positive sample, and two entries in order. -/
theorem witness_gain :
    (0 : Int) ≤ (0x7FFFFFFF : Word).toInt ∧ (-32768 : Sample).toInt < 0 ∧ (1 : Int) ≤ (1 : Word).toInt ∧ 0 < (32767 : Sample).toInt ∧
    (1 : Word).toInt ≤ (0x7FFFFFFF : Word).toInt := by decide

/-- EnvelopeStep, WindowIndexStaysInRange: index 0, the last entry, and N. -/
theorem witness_env :
    0 < toyBuild.n ∧ toyBuild.win[0]? = some 0 ∧ 3 < toyBuild.n ∧ toyBuild.win[3]? = some 0x60000000 ∧ 4 = toyBuild.n ∧
    toyBuild.win[4 - 1]? = some 0x60000000 := by decide

/-- MixCycleEffect, ToneBlockClosedForm, EnvelopeIsMonotone, WindowIndexStaysInRange: the two ways into a TX block, at the ends of the index,
an RX block, and blocks that are the marked ones. -/
theorem witness_mix :
    ({ toy with key := true }.key = true ∧ { toy with key := true }.idx.toNat ≤ toyBuild.n) ∧
    (0 < { toy with idx := 4 : State }.idx.toNat ∧ { toy with idx := 4 : State }.idx.toNat ≤ toyBuild.n) ∧
    (toy.key = false ∧ toy.idx.toNat = 0) ∧
    (Instr.mixCycle true true true).marksMatch toyBlocks = true ∧
    toyBlocks.get .inr = some [-21, -22, -23, -24] ∧ (toyBlocks.get .inr).bind (fun xs : List Sample => xs[3]?) = some (-24 : Sample) := by decide

/-- WindowIndexStaysInRange: a state of an RX block, and a cycle that answers, from an index in range. -/
theorem witness_mix_answers :
    toy.isTx = false ∧ { toy with idx := 4 : State }.idx.toNat ≤ toyBuild.n ∧ ∃ u, exec (.mixCycle true true true) { toy with idx := 4 } = .next u :=
  ⟨rfl, by decide, exec_next _ _⟩

/-- ReversalIsContinuous with N = 4 and L = 1: from 3 down to 2, and from 1 up to 2. -/
def stepwise : Build := { toyParams with blockLen := 1, lawful_eq := by decide }

theorem witness_reversal :
    let down : State := { State.powerOn stepwise with idx := 3 }
    let up : State := { State.powerOn stepwise with idx := 1, key := true }
    (∃ t, exec (.mixCycle true false false) down = .next t ∧ t.idx = 2 ∧ t.build = stepwise) ∧
    (∃ t, exec (.mixCycle true false false) up = .next t ∧ t.idx = 2 ∧ t.build = stepwise) ∧
    down.idx.toNat ≤ stepwise.n ∧ up.idx.toNat ≤ stepwise.n ∧ down.key = false ∧ up.key = true :=
  ⟨⟨_, rfl, by decide, rfl⟩, ⟨_, rfl, by decide, rfl⟩, by decide, by decide, rfl, rfl⟩

/-- TrailingMuteIsExact: a muted state and a state at the start of an RX block. -/
theorem witness_mute : { toy with mute := true }.mute = true ∧ toy.key = false ∧ toy.idx.toNat = 0 := by decide

/-- RampTakesWindowLengthSamples, SkippedCyclesFreezeState: cycles with the key held, with the key up, and skipped ones. -/
theorem witness_cycles :
    toy.idx.toNat = 0 ∧ (∀ c ∈ [(⟨true, true, true, true, toyBlocks⟩ : Cycle)], c.key = true) ∧
    { toy with idx := 4 : State }.idx.toNat = toyBuild.n ∧ (∀ c ∈ [(⟨false, true, true, true, toyBlocks⟩ : Cycle)], c.key = false) ∧
    (∀ c ∈ [(⟨false, false, true, true, Blocks.none⟩ : Cycle)], c.t = false ∧ c.key = toy.key) := by decide

/-- RampDownEndsInSilence: the whole block, and its first sample. -/
theorem witness_rampDown :
    let s : State := { toy with idx := 4 }
    s.key = false ∧ 0 < s.idx.toNat ∧ s.idx.toNat ≤ s.build.blockLen := by decide

/-- FlagPulseIsNotSeen, WellFormedCycleDrawsNothing: a cycle presented as the host owes it, after four flag writes. -/
theorem witness_pulse :
    (Instr.mixCycle true true true).wellFormed toy.build.toParams .audio toyBlocks = true ∧
    (∃ s₁ s₂ s₃ s₄, exec (.setKey true) toy = .next s₁ ∧ exec (.setMute true) s₁ = .next s₂ ∧ exec (.setKey false) s₂ = .next s₃ ∧
      exec (.setMute false) s₃ = .next s₄) ∧
    (∃ q₁ q₂, exec (.setKey false) toy = .next q₁ ∧ exec (.setMute false) q₁ = .next q₂) :=
  ⟨by decide, ⟨_, _, _, _, rfl, rfl, rfl, rfl⟩, ⟨_, _, rfl, rfl⟩⟩

/-- MixerIgnoresDenoiser: two states with the same mixer and another denoiser. -/
theorem witness_sameMixer :
    toy.SameMixer (chan0 1982 2) ∧ (chan0 1982 2).lane = toy.lane ∧ (chan0 1982 2).draws = toy.draws ∧ chan0 1982 2 ≠ toy :=
  ⟨⟨rfl, rfl, rfl, rfl, rfl⟩, rfl, rfl, by decide⟩

/-- FilterUpdate, ReportDecision, DenoiseUpdateEffect, MonotoneMovementReportsOnce: an enabled channel in range, at FMAX. -/
theorem witness_enabled :
    (chan0 16368 20).RegsOk ∧ (chan0 16368 20).channel? 0 = some (Channel.standard 16368 21) ∧ (Channel.standard 16368 21).en = true :=
  ⟨regsOk_of_check (by decide), by decide, by decide⟩

/-- DenoiseUpdateEffect, AbsentChannelNeverLooksAtRaw: the first absent channel, and a disabled one. -/
theorem witness_off :
    toy.build.nch ≤ (3 : BitVec 4).toNat ∧ toy.enabled? 3 = none ∧
    toy.channel? 2 = some { Channel.standard 16368 21 with en := false } ∧ toy.enabled? 2 = none ∧
    { toy with rr := 2 }.rr = 2 ∧ { toy with rr := 2 }.enabled? 2 = none := by decide

/-- FilterBound: FMAX itself. FilterSettles: a rising, a falling and a steady value. QuantizerSteps: a channel of the build. -/
theorem witness_filter :
    16368 ≤ toyBuild.ew * toyBuild.rawMax ∧ ceilEw toyParams 0 < 1023 ∧ 0 < ceilEw toyParams 16368 ∧ ceilEw toyParams 16353 = 1023 ∧
    ceilEw toyParams 0 = 0 ∧ Channel.standard 16368 32 ∈ toyBuild.chans := by decide

/-- RoundRobinCoversEveryChannel. -/
theorem witness_polls : { toy with rr := 2 : State }.RegsOk ∧ ([1023, 0, 65535] : List (BitVec 16)).length = toyBuild.nch :=
  ⟨regsOk_of_check (by decide), by decide⟩

/-- QuietInsideTheBand: DN-S1, from F = 769 with raw 48 and 50 in turn. -/
theorem witness_quiet :
    let s := chan0 769 0
    s.channel? 0 = some (Channel.standard 16368 21) ∧
    ∀ f ∈ filteredRun 0 s [48, 50, 48], ((f : Int) - ((s.lsAt 0).toNat * (Channel.standard 16368 21).b + (Channel.standard 16368 21).b / 2 : Nat)).natAbs
      ≤ (Channel.standard 16368 21).h := by decide

/-- AlternatingReportsNeedSpread: DN-B5 and DN-B7, a report of 1 from LS = 0 and one of 0 from LS = 1. -/
theorem witness_alternating :
    (chan0 780 0).RegsOk ∧ (chan0 780 1).RegsOk ∧ (chan0 780 1).build = (chan0 780 0).build ∧
    ∃ t t', exec (.denoiseUpdate 0 50) (chan0 780 0) = .next t ∧ exec (.denoiseUpdate 0 48) (chan0 780 1) = .next t' ∧
      t.lsAt 0 = 1 ∧ t'.lsAt 0 = 0 ∧ (chan0 780 1).lsAt 0 = t.lsAt 0 ∧ t'.lsAt 0 = (chan0 780 0).lsAt 0 :=
  ⟨regsOk_of_check (by decide), regsOk_of_check (by decide), rfl, _, _, rfl, rfl, by decide, by decide, by decide, by decide⟩

/-- MonotoneMovementReportsOnce: a rise (DN-S0) and a fall (DN-S0c). -/
theorem witness_monotone :
    (filteredRun 0 toy [1023, 1023]).Pairwise (· ≤ ·) ∧ (filteredRun 0 (chan0 16368 20) [0, 0]).Pairwise (· ≥ ·) := by decide

/-- DenoiserIgnoresMixer: two states with the same denoiser and another mixer. -/
theorem witness_sameDenoiser : toy.SameDenoiser { toy with key := true, mc := 1 } ∧ toy ≠ { toy with key := true, mc := 1 } :=
  ⟨⟨rfl, rfl, rfl, rfl⟩, by decide⟩

/-- ReadChannelEffect: a disabled channel of the build in a state in range, and the first channel it has not. -/
theorem witness_readChannel :
    toy.RegsOk ∧ toy.channel? 2 = some { Channel.standard 16368 21 with en := false } ∧ toy.build.nch ≤ (3 : BitVec 4).toNat :=
  ⟨toy_regsOk, by decide, by decide⟩

/-- ReportDecision: a margin of half a width, and a value one count out of the band and one on its edge. -/
theorem witness_outOfBand :
    let x := Channel.standard 16368 21
    x.b / 2 ≤ x.h ∧ x.h < ((781 : Int) - (0 * x.b + x.b / 2 : Nat)).natAbs ∧ ¬ x.h < ((780 : Int) - (0 * x.b + x.b / 2 : Nat)).natAbs := by decide

/-- FirstCommandsAfterReset: a state RESET leaves, its blocks, and an enabled channel of it. -/
theorem witness_afterReset :
    (∃ s, exec .reset (chan0 1982 2) = .next s ∧ s.channel? 0 = some (Channel.standard 16368 21)) ∧
    toyBlocks.inl = some [11, 12, 13, 14] ∧ toyBlocks.inr = some [-21, -22, -23, -24] ∧
    ([11, 12, 13, 14] : List Sample).length = toyBuild.blockLen ∧ ([-21, -22, -23, -24] : List Sample).length = toyBuild.blockLen :=
  ⟨⟨_, rfl, by decide⟩, by decide, by decide, by decide, by decide⟩

end Sys2Proof.Tests
end

section
/-! SUPPORT. The statements about the state as a whole (10_state.md): what a step runs, who writes which register, the invariant of a run,
the independence of mixer and denoiser, and the round robin of the poll ticks. -/

namespace Sys2Proof.Machine

/-! ### The step on a word of its own port -/

/-- A word that decodes to an instruction of its port runs it. -/
theorem step_exec {s s' : State} {p : Port} {w : Word} {i : Instr} (hf : s.fetch = some (p, w, s'))
    (hd : decode w = .ok i) (hp : i.port = p) : step s = exec i s' := by
  simp only [step, hf, hd, if_pos hp]

/-- Settles O10, by the lemma above: fetch, decode and port lead to exec. -/
theorem stepRunsDecodedInstruction : Obligations.StepRunsDecodedInstruction :=
  fun _ _ _ _ _ => step_exec

/-! ### The ends of commands change no register -/

theorem State.finishControl_sameRegs (s : State) (r : Reply) : s.SameRegs (s.finishControl r) :=
  ⟨rfl, rfl, rfl, rfl, rfl, rfl, rfl, rfl⟩

theorem State.finishAudio_sameRegs (s : State) (r : Reply) (rel : List BlockName) : s.SameRegs (s.finishAudio r rel) :=
  ⟨rfl, rfl, rfl, rfl, rfl, rfl, rfl, rfl⟩

theorem State.ignoreWord_sameRegs (s : State) (p : Port) : s.SameRegs (s.ignoreWord p) := by
  cases p with
  | control => exact s.finishControl_sameRegs _
  | audio => exact s.finishAudio_sameRegs _ _

/-! ### What an update of a channel can write -/

/-- An update of a channel writes F and LS only, and its response names the channel (R144). -/
theorem State.updateChannel_cases (s : State) (ch : BitVec 4) (raw : BitVec 16) :
    ∃ (f : List (BitVec 16)) (ls : List (BitVec 5)) (rep : Bool) (q : BitVec 5),
      s.updateChannel ch raw = { s with f := f, ls := ls }.finishControl (.respond (drWord ch rep q)) := by
  cases h : s.enabled? ch with
  | none => exact ⟨s.f, s.ls, false, 0, s.updateChannel_off h raw⟩
  | some x =>
    rw [s.updateChannel_on h raw]
    obtain ⟨-, e⟩ | ⟨-, e⟩ := (s.filterChannel ch raw).reportChannel_cases x ch <;> exact ⟨_, _, _, _, e⟩

theorem exec_denoiseUpdate_cases {ch : BitVec 4} {raw : BitVec 16} {s t : State} (h : exec (.denoiseUpdate ch raw) s = .next t) :
    ∃ (f : List (BitVec 16)) (ls : List (BitVec 5)) (rep : Bool) (q : BitVec 5),
      t = { s with f := f, ls := ls }.finishControl (.respond (drWord ch rep q)) := by
  obtain ⟨f, ls, rep, q, e⟩ := s.updateChannel_cases ch raw
  rw [exec_denoiseUpdate, e] at h
  cases h
  exact ⟨f, ls, rep, q, rfl⟩

/-- POLL_TICK writes RR besides, and answers for the channel RR named (R145). -/
theorem exec_pollTick_cases {raw : BitVec 16} {s t : State} (h : exec (.pollTick raw) s = .next t) :
    ∃ (f : List (BitVec 16)) (ls : List (BitVec 5)) (rep : Bool) (q : BitVec 5),
      t = { s with f := f, ls := ls, rr := s.nextRr }.finishControl (.respond (drWord s.rr rep q)) := by
  obtain ⟨f, ls, rep, q, e⟩ := State.updateChannel_cases { s with rr := s.nextRr } s.rr raw
  rw [exec_pollTick, e] at h
  cases h
  exact ⟨f, ls, rep, q, rfl⟩

/-! ### Ranges of what MIX_CYCLE writes -/

/-- The loop over a tone block keeps the index in 0..N (R104). -/
theorem envBlock_index_le {p : Params} (k : Bool) {idx : Nat} (ss : List Sample) (h : idx ≤ p.n) :
    (envBlock p k idx ss).2 ≤ p.n := by
  induction ss generalizing idx with
  | nil => exact h
  | cons s ss ih =>
    rw [envBlock_cons]
    apply ih
    rw [env_index]
    split
    · split <;> omega
    · omega

/-- The index after the tone path, in the 12 bits of IDX, is in 0..N (R104). -/
theorem State.toneOut_index_le {s : State} (h : s.idx.toNat ≤ s.build.n) : (BitVec.ofNat 12 s.toneOut.2).toNat ≤ s.build.n :=
  (BitVec.toNat_ofNat .. ▸ Nat.mod_le _ _).trans (envBlock_index_le s.key (s.samples .tone) h)

theorem State.nextMc_le {s : State} (h : s.mc.toNat ≤ s.build.trailBlocks) : s.nextMc.toNat ≤ s.build.trailBlocks := by
  rw [s.nextMc_toNat]
  split <;> omega

/-- A MIX_CYCLE writes IDX and MC only, keeps each in its range, and ends on the audio port (R103, R104). -/
theorem exec_mixCycle_cases {t l r : Bool} {s u : State} (h : exec (.mixCycle t l r) s = .next u) :
    ∃ (idx : BitVec 12) (mc : BitVec 16) (reply : Reply),
      u = { s with idx := idx, mc := mc }.finishAudio reply (releases t l r s.lane) ∧
      (s.idx.toNat ≤ s.build.n → idx.toNat ≤ s.build.n) ∧
      (s.mc.toNat ≤ s.build.trailBlocks → mc.toNat ≤ s.build.trailBlocks) := by
  cases t with
  | false =>
    rw [exec_mixCycle_skip] at h
    cases h
    exact ⟨s.idx, s.mc, _, rfl, id, id⟩
  | true =>
    cases htx : s.isTx with
    | false =>
      rw [exec_mixCycle_pass l r s htx] at h
      cases h
      exact ⟨0, s.nextMc, _, rfl, fun _ => Nat.zero_le _, State.nextMc_le⟩
    | true =>
      rw [exec_mixCycle_tone l r s htx] at h
      cases h
      exact ⟨_, s.nextMc, _, rfl, State.toneOut_index_le, State.nextMc_le⟩

/-! ### The invariant -/

/-- EW − 1 parts of FMAX and one raw value clamped to RAW_MAX make at most FMAX (R146). -/
theorem ema_le_fmax (b : Build) {f : Nat} (raw : BitVec 16) (h : f ≤ b.fmax) : ema b.toParams f raw ≤ b.fmax := by
  have hew := b.two_le_ew
  have hfilter : ((b.ew - 1) * f) / b.ew ≤ (b.ew - 1) * b.rawMax := by
    refine Nat.div_le_of_le_mul ?_
    calc (b.ew - 1) * f ≤ (b.ew - 1) * (b.ew * b.rawMax) := Nat.mul_le_mul_left _ h
      _ = b.ew * ((b.ew - 1) * b.rawMax) := Nat.mul_left_comm ..
  calc ema b.toParams f raw ≤ (b.ew - 1) * b.rawMax + b.rawMax := Nat.add_le_add hfilter (Nat.min_le_right _ _)
    _ = (b.ew - 1 + 1) * b.rawMax := (Nat.succ_mul _ _).symm
    _ = b.fmax := by rw [Nat.sub_add_cancel (by omega)]; rfl

/-- The ranges hold for any KEY and MUTE, and for an IDX and an MC in range. -/
theorem State.RegsOk.withMixer {s : State} (h : s.RegsOk) (key mute : Bool) {idx : BitVec 12} {mc : BitVec 16}
    (hidx : idx.toNat ≤ s.build.n) (hmc : mc.toNat ≤ s.build.trailBlocks) :
    { s with key := key, mute := mute, idx := idx, mc := mc : State }.RegsOk :=
  ⟨hidx, hmc, h.f_length, h.ls_length, h.channels, h.rr_lt⟩

theorem State.RegsOk.withRr {s : State} (h : s.RegsOk) {rr : BitVec 4} (hrr : rr.toNat < s.build.nch) :
    { s with rr := rr : State }.RegsOk :=
  ⟨h.idx_le, h.mc_le, h.f_length, h.ls_length, h.channels, hrr⟩

/-- F of an enabled channel may take any value in 0..FMAX. -/
theorem State.RegsOk.writeF {s : State} {ch : BitVec 4} {x : Channel} {v : BitVec 16} (h : s.RegsOk)
    (hx : s.enabled? ch = some x) (hv : v.toNat ≤ s.build.fmax) : (s.writeF ch v).RegsOk := by
  obtain ⟨hx, hen⟩ := State.enabled?_eq_some.mp hx
  refine ⟨h.idx_le, h.mc_le, by simp [h.f_length], h.ls_length, fun c y hy => ?_, h.rr_lt⟩
  obtain ⟨hf, hls, hoff⟩ := h.channels c y hy
  have hc : c.toNat < s.f.length := h.f_length ▸ State.lt_nch_of_channel? hy
  simp only [State.ChannelOk, State.writeF_fAt hc, State.writeF_lsAt, State.writeF_build]
  by_cases e : c = ch
  · obtain rfl : x = y := Option.some.inj (hx.symm.trans (e ▸ hy))
    simp [e, hen, hv, e ▸ hls]
  · simpa only [if_neg e] using ⟨hf, hls, hoff⟩

/-- LS of an enabled channel may take any step below C. -/
theorem State.RegsOk.writeLs {s : State} {ch : BitVec 4} {x : Channel} {v : BitVec 5} (h : s.RegsOk)
    (hx : s.enabled? ch = some x) (hv : v.toNat < x.c) : (s.writeLs ch v).RegsOk := by
  obtain ⟨hx, hen⟩ := State.enabled?_eq_some.mp hx
  refine ⟨h.idx_le, h.mc_le, h.f_length, by simp [h.ls_length], fun c y hy => ?_, h.rr_lt⟩
  obtain ⟨hf, hls, hoff⟩ := h.channels c y hy
  have hc : c.toNat < s.ls.length := h.ls_length ▸ State.lt_nch_of_channel? hy
  simp only [State.ChannelOk, State.writeLs_lsAt hc, State.writeLs_fAt, State.writeLs_build]
  by_cases e : c = ch
  · obtain rfl : x = y := Option.some.inj (hx.symm.trans (e ▸ hy))
    simp [e, hen, hv, e ▸ hf]
  · simpa only [if_neg e] using ⟨hf, hls, hoff⟩

theorem State.RegsOk.finishControl {s : State} (h : s.RegsOk) (r : Reply) : (s.finishControl r).RegsOk :=
  h.of_sameRegs (s.finishControl_sameRegs r)

theorem State.RegsOk.finishAudio {s : State} (h : s.RegsOk) (r : Reply) (rel : List BlockName) : (s.finishAudio r rel).RegsOk :=
  h.of_sameRegs (s.finishAudio_sameRegs r rel)

/-- The filter keeps F[ch] in 0..FMAX (R146). -/
theorem State.RegsOk.filterChannel {s : State} {ch : BitVec 4} {x : Channel} (h : s.RegsOk) (hx : s.enabled? ch = some x)
    (raw : BitVec 16) : (s.filterChannel ch raw).RegsOk := by
  refine h.writeF hx (le_trans (BitVec.toNat_ofNat .. ▸ Nat.mod_le _ _) (ema_le_fmax s.build raw ?_))
  exact (h.channels ch x (State.enabled?_eq_some.mp hx).1).1

/-- A report keeps LS[ch] in 0..C−1. -/
theorem State.RegsOk.reportChannel {s : State} {ch : BitVec 4} {x : Channel} (h : s.RegsOk) (hx : s.enabled? ch = some x) :
    (s.reportChannel x ch).RegsOk := by
  obtain ⟨-, e⟩ | ⟨-, e⟩ := s.reportChannel_cases x ch
  · rw [e]
    have hmem := State.mem_chans_of_channel? (State.enabled?_eq_some.mp hx).1
    exact (h.writeLs hx ((BitVec.toNat_ofNat .. ▸ Nat.mod_le _ _).trans_lt
      (quantize_lt (s.build.channel_laws hmem).1 _))).finishControl _
  · rw [e]
    exact h.finishControl _

theorem State.RegsOk.updateChannel {s : State} (h : s.RegsOk) (ch : BitVec 4) (raw : BitVec 16) : (s.updateChannel ch raw).RegsOk := by
  cases hx : s.enabled? ch with
  | none => rw [s.updateChannel_off hx raw]; exact h.finishControl _
  | some x => rw [s.updateChannel_on hx raw]; exact (h.filterChannel hx raw).reportChannel hx

/-- The reset values are in range, in every state. -/
theorem State.clearRegisters_regsOk (s : State) : s.clearRegisters.RegsOk := by
  refine ⟨Nat.zero_le _, Nat.zero_le _, by simp, by simp, fun ch x hx => ?_, s.build.one_le_nch⟩
  have hc : ch.toNat < s.build.nch := State.lt_nch_of_channel? hx
  have hC := (s.build.channel_laws (State.mem_chans_of_channel? hx)).1
  have hf : s.clearRegisters.fAt ch = 0 := by simp [State.fAt, hc]
  have hls : s.clearRegisters.lsAt ch = 0 := by simp [State.lsAt, hc]
  refine ⟨by simp [hf], ?_, fun _ => ⟨hf, hls⟩⟩
  rw [hls]
  exact Nat.lt_of_lt_of_le Nat.zero_lt_two hC

/-- Every instruction keeps every register in its range. -/
theorem exec_keeps_regsOk {i : Instr} {s t : State} (h : s.RegsOk) (he : exec i s = .next t) : t.RegsOk := by
  cases i with
  | nop => cases he; exact h.finishControl _
  | setKey v => cases he; exact (h.withMixer v s.mute h.idx_le h.mc_le).finishControl _
  | setMute v => cases he; exact (h.withMixer s.key v h.idx_le h.mc_le).finishControl _
  | denoiseUpdate ch raw => cases he; exact h.updateChannel ch raw
  | pollTick raw =>
    cases he
    refine (h.withRr ?_).updateChannel s.rr raw
    exact s.nextRr_toNat ▸ Nat.mod_lt _ s.build.one_le_nch
  | mixCycle =>
    obtain ⟨idx, mc, reply, rfl, hidx, hmc⟩ := exec_mixCycle_cases he
    exact (h.withMixer s.key s.mute (hidx h.idx_le) (hmc h.mc_le)).finishAudio _ _
  | readStatus => cases he; exact h.finishControl _
  | readChannel => cases he; exact h.finishControl _
  | reset => cases he; exact s.clearRegisters_regsOk.finishControl _

/-- A control command leaves the lane alone, a MIX_CYCLE empties it (R56). -/
theorem exec_lane {i : Instr} {s t : State} (he : exec i s = .next t) :
    t.lane = if i.port = .audio then Blocks.none else s.lane := by
  cases i with
  | mixCycle => obtain ⟨_, _, _, rfl, -⟩ := exec_mixCycle_cases he; rfl
  | denoiseUpdate => obtain ⟨_, _, _, _, rfl⟩ := exec_denoiseUpdate_cases he; rfl
  | pollTick => obtain ⟨_, _, _, _, rfl⟩ := exec_pollTick_cases he; rfl
  | _ => cases he; rfl

/-- So does an ignored word of either port (R174). -/
theorem State.ignoreWord_lane (s : State) (p : Port) : (s.ignoreWord p).lane = if p = .audio then Blocks.none else s.lane := by
  cases p <;> rfl

/-- Settles O20: the ranges by the lemma for each instruction; the lane, since a word of the control port leaves it empty and one of the audio
port empties it. -/
theorem stepKeepsInvariant : Obligations.StepKeepsInvariant := by
  intro s t h hstep
  have lane_empty : ∀ {p : Port} {w : Word} {s' : State}, s.fetch = some (p, w, s') →
      (if p = .audio then Blocks.none else s'.lane) = Blocks.none := by
    intro p w s' hf
    cases p with
    | audio => rfl
    | control => exact (State.fetch_control_lane hf).trans h.lane_empty
  obtain ⟨-, rfl⟩ | ⟨p, w, s', hf, -, rfl⟩ | ⟨p, w, s', i, hf, -, rfl, he⟩ := step_cases hstep
  · exact h
  · exact ⟨h.toRegsOk.of_sameRegs ((State.fetch_sameRegs hf).trans (s'.ignoreWord_sameRegs p)),
      (s'.ignoreWord_lane p).trans (lane_empty hf)⟩
  · exact ⟨exec_keeps_regsOk (h.toRegsOk.of_sameRegs (State.fetch_sameRegs hf)) he, (exec_lane he).trans (lane_empty hf)⟩

/-! ### Who writes which register (R33) -/

/-- From s to t an operation of row o of the opcode map has changed only the registers it owns (R21 to R27, R33); RESET owns them all. -/
structure OwnersOnly (o : Op) (s t : State) : Prop where
  key : o ≠ .reset → o ≠ .setKey → t.key = s.key
  mute : o ≠ .reset → o ≠ .setMute → t.mute = s.mute
  mixer : o ≠ .reset → o ≠ .mixCycle → t.idx = s.idx ∧ t.mc = s.mc
  denoiser : o ≠ .reset → o ≠ .denoiseUpdate → o ≠ .pollTick → t.f = s.f ∧ t.ls = s.ls
  rr : o ≠ .reset → o ≠ .pollTick → t.rr = s.rr

theorem exec_ownersOnly {i : Instr} {s t : State} (he : exec i s = .next t) : OwnersOnly i.op s t := by
  cases i with
  | mixCycle => obtain ⟨_, _, _, rfl, -⟩ := exec_mixCycle_cases he; constructor <;> simp [Instr.op]
  | denoiseUpdate => obtain ⟨_, _, _, _, rfl⟩ := exec_denoiseUpdate_cases he; constructor <;> simp [Instr.op]
  | pollTick => obtain ⟨_, _, _, _, rfl⟩ := exec_pollTick_cases he; constructor <;> simp [Instr.op]
  | _ => cases he; constructor <;> simp [Instr.op]

/-- The op field of a defined word is that of its row's match word (R79). -/
theorem opField_of_decode {w : Word} {i : Instr} (h : decode w = .ok i) : opField w = opField i.op.matchWord := by
  rcases decode_eq_ok.mp h with ⟨e, -, rfl⟩ | ⟨e, -, rfl⟩ | ⟨e, -, rfl⟩ | ⟨e, -, rfl⟩ | ⟨e, -, rfl⟩ | ⟨e, -, rfl⟩ | ⟨e, -, rfl⟩ |
    ⟨e, -, rfl⟩ | ⟨e, -, rfl⟩ <;> simp only [e, Instr.op] <;> decide

/-- RESET has one word (R72, R79). -/
theorem word_of_decode_reset {w : Word} (h : decode w = .ok .reset) : w = 0xF0000000 := by
  obtain ⟨hop, hlow⟩ : opField w = 0xF ∧ w.extractLsb' 0 28 = 0 := by simpa using decode_eq_ok.mp h
  have hop := congrArg BitVec.toNat hop
  have hlow := congrArg BitVec.toNat hlow
  simp only [opField, BitVec.extractLsb'_toNat, Nat.shiftRight_eq_div_pow] at hop hlow
  apply BitVec.eq_of_toNat_eq
  simp only [BitVec.reduceToNat, Nat.reducePow, Nat.div_one] at hop hlow ⊢
  omega

theorem port_eq_audio_iff (i : Instr) : i.port = .audio ↔ i.op = .mixCycle := by
  cases i <;> simp [Instr.port, Instr.op, Op.port]

theorem op_eq_reset_iff (i : Instr) : i.op = .reset ↔ i = .reset := by
  cases i <;> simp [Instr.op]

/-- Settles O19: an ignored word changes no register, and an instruction only what its row owns; its row is read off the op field. -/
theorem registersChangeOnlyByTheirOwner : Obligations.RegistersChangeOnlyByTheirOwner := by
  intro s s' t p w hf hstep op
  obtain ⟨-, hkey, hmute, hidx, hmc, hF, hLs, hRr⟩ := State.fetch_sameRegs hf
  rw [← hkey, ← hmute, ← hidx, ← hmc, ← hF, ← hLs, ← hRr]
  by_cases hrun : ∃ i, decode w = .ok i ∧ i.port = p
  · obtain ⟨i, hd, rfl⟩ := hrun
    have own : OwnersOnly i.op s' t := exec_ownersOnly ((step_exec hf hd rfl).symm.trans hstep)
    have row : ∀ o : Op, op ≠ (opField o.matchWord).toNat → i.op ≠ o := by
      rintro o h rfl
      exact h (congrArg BitVec.toNat (opField_of_decode hd))
    refine ⟨fun hp => ?_, fun hp hw => ?_, fun hr h1 => own.key (row .reset hr) (row .setKey h1),
      fun hr h2 => own.mute (row .reset hr) (row .setMute h2), fun hr h4 => own.rr (row .reset hr) (row .pollTick h4),
      fun hr h3 h4 => own.denoiser (row .reset hr) (row .denoiseUpdate h3) (row .pollTick h4)⟩
    · rw [(port_eq_audio_iff i).mp hp] at own
      obtain ⟨hf, hls⟩ := own.denoiser nofun nofun nofun
      exact ⟨own.key nofun nofun, own.mute nofun nofun, hf, hls, own.rr nofun nofun⟩
    · refine own.mixer (fun e => hw ?_) fun e => ?_
      · exact word_of_decode_reset ((op_eq_reset_iff i).mp e ▸ hd)
      · rw [(port_eq_audio_iff i).mpr e] at hp
        cases hp
  · have hignored : ∀ i, decode w = .ok i → i.port ≠ p := fun i hd hp => hrun ⟨i, hd, hp⟩
    rw [step_ignore hf hignored] at hstep
    cases hstep
    obtain ⟨-, key, mute, idx, mc, f, ls, rr⟩ := s'.ignoreWord_sameRegs p
    exact ⟨fun _ => ⟨key, mute, f, ls, rr⟩, fun _ _ => ⟨idx, mc⟩, fun _ _ => key, fun _ _ => mute, fun _ _ => rr,
      fun _ _ _ => ⟨f, ls⟩⟩

/-! ### The mixer reads none of the denoiser's registers (R20, R33) -/

section
variable {s u : State} (h : s.SameMixer u) (hlane : u.lane = s.lane) (hdraws : u.draws = s.draws)
include h

theorem State.SameMixer.isTx_eq : u.isTx = s.isTx := by
  obtain ⟨-, hkey, -, hidx, -⟩ := h
  simp only [State.isTx, hkey, hidx]

theorem State.SameMixer.nextMc_eq : u.nextMc = s.nextMc := by
  obtain ⟨hbuild, -, hmute, -, hmc⟩ := h
  simp only [State.nextMc, hbuild, hmute, hmc]

theorem State.SameMixer.gated_eq : u.gated = s.gated := by
  obtain ⟨hbuild, -, hmute, -, hmc⟩ := h
  simp only [State.gated, hbuild, hmute, hmc]

include hlane hdraws

theorem State.SameMixer.samples_eq (n : BlockName) : u.samples n = s.samples n := by
  have hsample : u.sample n = s.sample n := by
    funext i
    simp only [State.sample, hlane, hdraws]
  obtain ⟨hbuild, -⟩ := h
  simp only [State.samples, hsample, hbuild]

theorem State.SameMixer.toneOut_eq : u.toneOut = s.toneOut := by
  have hsamples := h.samples_eq hlane hdraws .tone
  obtain ⟨hbuild, hkey, -, hidx, -⟩ := h
  simp only [State.toneOut, hbuild, hkey, hidx, hsamples]

theorem State.SameMixer.passOut_eq (present : Bool) (n : BlockName) : u.passOut present n = s.passOut present n := by
  have hgated := h.gated_eq
  have hsamples := h.samples_eq hlane hdraws n
  obtain ⟨hbuild, -⟩ := h
  simp only [State.passOut, hbuild, hgated, hsamples]

end

/-- Settles O38: each path of MIX_CYCLE is taken by both states or by neither, and gives both the same outcome, IDX and MC. -/
theorem mixerIgnoresDenoiser : Obligations.MixerIgnoresDenoiser := by
  intro t l r s u h hlane hdraws
  have htx := h.isTx_eq
  have hmc := h.nextMc_eq
  have htone := h.toneOut_eq hlane hdraws
  have hpass := h.passOut_eq hlane hdraws
  obtain ⟨hbuild, hkey, hmute, hidx, hmc₀⟩ := h
  cases t with
  | false =>
    refine ⟨_, _, _, exec_mixCycle_skip l r s, exec_mixCycle_skip l r u, rfl, ?_, ?_⟩
    · rw [hlane]; rfl
    · exact ⟨hbuild, hkey, hmute, hidx, hmc₀⟩
  | true =>
    cases hs : s.isTx with
    | false =>
      refine ⟨_, _, _, exec_mixCycle_pass l r s hs, exec_mixCycle_pass l r u (htx.trans hs), rfl, ?_, ?_⟩
      · rw [hlane, hpass, hpass]; rfl
      · exact ⟨hbuild, hkey, hmute, rfl, hmc⟩
    | true =>
      refine ⟨_, _, _, exec_mixCycle_tone l r s hs, exec_mixCycle_tone l r u (htx.trans hs), rfl, ?_, ?_⟩
      · rw [hlane, htone]; rfl
      · exact ⟨hbuild, hkey, hmute, by simp [htone], hmc⟩

/-! ### The denoiser reads none of the mixer's registers (R20, R33) -/

/-- From s and u, which agree on the denoiser's registers, s' and u' follow by one and the same outcome and agree on them again. -/
def DenoiserAlike (s u s' u' : State) : Prop :=
  ∃ e : Event, s'.out = s.out ++ [e] ∧ u'.out = u.out ++ [e] ∧ s'.SameDenoiser u'

section
variable {s u : State} (h : s.SameDenoiser u)
include h

theorem State.SameDenoiser.channel?_eq (ch : BitVec 4) : u.channel? ch = s.channel? ch := by
  obtain ⟨hbuild, -⟩ := h
  simp only [State.channel?, hbuild]

theorem State.SameDenoiser.enabled?_eq (ch : BitVec 4) : u.enabled? ch = s.enabled? ch := by
  simp only [State.enabled?, h.channel?_eq]

theorem State.SameDenoiser.fAt_eq (ch : BitVec 4) : u.fAt ch = s.fAt ch := by
  obtain ⟨-, hf, -⟩ := h
  simp only [State.fAt, hf]

theorem State.SameDenoiser.lsAt_eq (ch : BitVec 4) : u.lsAt ch = s.lsAt ch := by
  obtain ⟨-, -, hls, -⟩ := h
  simp only [State.lsAt, hls]

theorem State.SameDenoiser.channelWord_eq (ch : BitVec 4) : u.channelWord ch = s.channelWord ch := by
  simp only [State.channelWord, h.channel?_eq, h.fAt_eq, h.lsAt_eq]

theorem State.SameDenoiser.rr_eq : u.rr = s.rr := by
  obtain ⟨-, -, -, hrr⟩ := h
  exact hrr

theorem State.SameDenoiser.nextRr_eq : u.nextRr = s.nextRr := by
  obtain ⟨hbuild, -, -, hrr⟩ := h
  simp only [State.nextRr, hbuild, hrr]

/-- The same response ends a command in both states. -/
theorem State.SameDenoiser.finishControl (r : Reply) : DenoiserAlike s u (s.finishControl r) (u.finishControl r) :=
  ⟨_, rfl, rfl, h⟩

theorem State.SameDenoiser.withRr {rr rr' : BitVec 4} (e : rr' = rr) :
    { s with rr := rr : State }.SameDenoiser { u with rr := rr' } := by
  obtain ⟨hbuild, hf, hls, -⟩ := h
  exact ⟨hbuild, hf, hls, e⟩

theorem State.SameDenoiser.filterChannel (ch : BitVec 4) (raw : BitVec 16) :
    (s.filterChannel ch raw).SameDenoiser (u.filterChannel ch raw) := by
  have hfAt := h.fAt_eq ch
  obtain ⟨hbuild, hf, hls, hrr⟩ := h
  refine ⟨hbuild, ?_, hls, hrr⟩
  simp only [State.filterChannel, State.writeF_f, hbuild, hf, hfAt]

theorem State.SameDenoiser.writeLs (ch : BitVec 4) (v : BitVec 5) : (s.writeLs ch v).SameDenoiser (u.writeLs ch v) := by
  obtain ⟨hbuild, hf, hls, hrr⟩ := h
  exact ⟨hbuild, hf, congrArg (List.set · ch.toNat v) hls, hrr⟩

theorem State.SameDenoiser.reportChannel (x : Channel) (ch : BitVec 4) :
    DenoiserAlike s u (s.reportChannel x ch) (u.reportChannel x ch) := by
  unfold State.reportChannel
  rw [h.fAt_eq, h.lsAt_eq]
  split
  · exact (h.writeLs ch _).finishControl _
  · exact h.finishControl _

theorem State.SameDenoiser.updateChannel (ch : BitVec 4) (raw : BitVec 16) :
    DenoiserAlike s u (s.updateChannel ch raw) (u.updateChannel ch raw) := by
  cases hx : s.enabled? ch with
  | none =>
    rw [s.updateChannel_off hx, u.updateChannel_off ((h.enabled?_eq ch).trans hx)]
    exact h.finishControl _
  | some x =>
    rw [s.updateChannel_on hx, u.updateChannel_on ((h.enabled?_eq ch).trans hx)]
    exact (h.filterChannel ch raw).reportChannel x ch

end

theorem exec_readChannel (ch : BitVec 4) (s : State) :
    exec (.readChannel ch) s = .next (s.finishControl (.respond (s.channelWord ch))) := rfl

/-- Settles O51: POLL_TICK is an update of the channel both states name; READ_CHANNEL reads the same word in both. -/
theorem denoiserIgnoresMixer : Obligations.DenoiserIgnoresMixer := by
  intro i s u hi h
  have alike : ∃ s' u', exec i s = .next s' ∧ exec i u = .next u' ∧ DenoiserAlike s u s' u' := by
    obtain ⟨ch, raw, rfl⟩ | ⟨raw, rfl⟩ | ⟨ch, rfl⟩ := hi
    · exact ⟨_, _, exec_denoiseUpdate ch raw s, exec_denoiseUpdate ch raw u, h.updateChannel ch raw⟩
    · refine ⟨_, _, exec_pollTick raw s, exec_pollTick raw u, ?_⟩
      rw [h.rr_eq]
      exact (h.withRr h.nextRr_eq).updateChannel s.rr raw
    · refine ⟨_, _, exec_readChannel ch s, exec_readChannel ch u, ?_⟩
      rw [h.channelWord_eq]
      exact h.finishControl _
  obtain ⟨s', u', hs, hu, e, halike⟩ := alike
  exact ⟨s', u', e, hs, hu, halike⟩

/-! ### The round robin (R27, R145) -/

/-- The ch field of a denoiser response (R81). -/
theorem drWord_ch (ch : BitVec 4) (rep : Bool) (step : BitVec 5) : (drWord ch rep step).extractLsb' 12 4 = ch := by
  refine BitVec.eq_of_getLsbD_eq fun i hi => ?_
  simp only [drWord, place]
  interval_cases i <;> simp

/-- The channel a denoiser response is for: the ch field of DR (R81). -/
def answeredChannel (w : Word) : Nat := (w.extractLsb' 12 4).toNat

/-- A tick answers for the channel RR names, and RR steps round (R145). -/
theorem exec_pollTick_answers (s : State) (raw : BitVec 16) :
    ∃ (t : State) (w : Word), exec (.pollTick raw) s = .next t ∧ t.build = s.build ∧ t.rr.toNat = (s.rr.toNat + 1) % s.build.nch ∧
      t.out = s.out ++ [⟨.control, .respond w, []⟩] ∧ answeredChannel w = s.rr.toNat := by
  obtain ⟨t, h⟩ := exec_next (.pollTick raw) s
  obtain ⟨f, ls, rep, q, rfl⟩ := exec_pollTick_cases h
  exact ⟨_, drWord s.rr rep q, h, rfl, s.nextRr_toNat, rfl, congrArg BitVec.toNat (drWord_ch ..)⟩

/-- Any number of ticks answers for the channels from RR on, in turn round the build's channels, and RR moves on by as many. -/
theorem runPolls_turns (s : State) (raws : List (BitVec 16)) (h : s.rr.toNat < s.build.nch) :
    ∃ words : List Word,
      (runPolls s raws).out = s.out ++ words.map (fun w => ⟨.control, .respond w, []⟩) ∧
      (runPolls s raws).rr.toNat = (s.rr.toNat + raws.length) % s.build.nch ∧
      words.map answeredChannel = (List.range raws.length).map (fun i => (s.rr.toNat + i) % s.build.nch) := by
  induction raws generalizing s with
  | nil => exact ⟨[], by simp, (Nat.mod_eq_of_lt h).symm, rfl⟩
  | cons raw raws ih =>
    obtain ⟨t, w, ht, hbuild, hrr, hout, hw⟩ := exec_pollTick_answers s raw
    have hrun : runPolls s (raw :: raws) = runPolls t raws := by rw [runPolls, ht]; rfl
    have hshift : ∀ i, (t.rr.toNat + i) % t.build.nch = (s.rr.toNat + (i + 1)) % s.build.nch := by
      intro i
      rw [hrr, hbuild, Nat.mod_add_mod, Nat.add_assoc, Nat.add_comm 1 i]
    obtain ⟨words, hws, hend, hturns⟩ := ih t (by rw [hrr, hbuild]; exact Nat.mod_lt _ s.build.one_le_nch)
    refine ⟨w :: words, ?_, ?_, ?_⟩
    · rw [hrun, hws, hout, List.append_assoc]; rfl
    · rw [hrun, hend, hshift]; rfl
    · rw [List.map_cons, hturns, hw, List.length_cons, List.range_succ_eq_map, List.map_cons, List.map_map]
      simp only [hshift, Nat.add_zero, Nat.mod_eq_of_lt h]
      rfl

/-- Counting n times round n numbers from r is a rotation of 0..n−1. -/
theorem map_add_mod_range (r n : Nat) : (List.range n).map (fun i => (r + i) % n) = (List.range n).rotate r := by
  refine List.ext_getElem (by simp) fun i _ _ => ?_
  simp [List.getElem_rotate, Nat.add_comm]

/-- Settles O47: NCH ticks go once round a rotation of the channels, in which each stands once. -/
theorem roundRobinCoversEveryChannel : Obligations.RoundRobinCoversEveryChannel := by
  intro s raws h hlen
  obtain ⟨words, hout, hrr, hturns⟩ := runPolls_turns s raws h.rr_lt
  rw [hlen] at hrr hturns
  refine ⟨words, hout, ?_, hturns, fun c hc => ?_⟩
  · apply BitVec.eq_of_toNat_eq
    rw [hrr, Nat.add_mod_right, Nat.mod_eq_of_lt h.rr_lt]
  · calc (words.map answeredChannel).count c = ((List.range s.build.nch).rotate s.rr.toNat).count c := by
          rw [hturns, map_add_mod_range]
      _ = (List.range s.build.nch).count c := (List.rotate_perm _ _).count_eq c
      _ = 1 := List.count_eq_one_of_mem List.nodup_range (List.mem_range.mpr hc)

end Sys2Proof.Machine
end

section
/-! SUPPORT. The statements about the two ports and their blocks (20_memory.md): what a step takes from the ports, which orders of service a
schedule gives, and what an audio word releases. -/

namespace Sys2Proof.Machine

/-! ### What a command leaves at the ports, and its outcome (R13, R59) -/

theorem State.SameQueues.trans {s t u : State} (h : s.SameQueues t) (h' : t.SameQueues u) : s.SameQueues u := by
  obtain ⟨hc, ha, hq⟩ := h
  obtain ⟨hc', ha', hq'⟩ := h'
  exact ⟨hc'.trans hc, ha'.trans ha, hq'.trans hq⟩

/-- No instruction takes a word from a port or uses up a grant, not even RESET (log 11). -/
theorem exec_sameQueues {i : Instr} {s t : State} (he : exec i s = .next t) : s.SameQueues t := by
  cases i with
  | mixCycle => obtain ⟨_, _, _, rfl, -⟩ := exec_mixCycle_cases he; exact ⟨rfl, rfl, rfl⟩
  | denoiseUpdate => obtain ⟨_, _, _, _, rfl⟩ := exec_denoiseUpdate_cases he; exact ⟨rfl, rfl, rfl⟩
  | pollTick => obtain ⟨_, _, _, _, rfl⟩ := exec_pollTick_cases he; exact ⟨rfl, rfl, rfl⟩
  | _ => cases he; exact ⟨rfl, rfl, rfl⟩

theorem State.ignoreWord_sameQueues (s : State) (p : Port) : s.SameQueues (s.ignoreWord p) := by
  cases p <;> exact ⟨rfl, rfl, rfl⟩

/-- An instruction hands out one outcome, on its own port. -/
theorem exec_out {i : Instr} {s t : State} (he : exec i s = .next t) : ∃ e : Event, t.out = s.out ++ [e] ∧ e.port = i.port := by
  cases i with
  | mixCycle => obtain ⟨_, _, _, rfl, -⟩ := exec_mixCycle_cases he; exact ⟨_, rfl, rfl⟩
  | denoiseUpdate => obtain ⟨_, _, _, _, rfl⟩ := exec_denoiseUpdate_cases he; exact ⟨_, rfl, rfl⟩
  | pollTick => obtain ⟨_, _, _, _, rfl⟩ := exec_pollTick_cases he; exact ⟨_, rfl, rfl⟩
  | _ => cases he; exact ⟨_, rfl, rfl⟩

theorem State.ignoreWord_out (s : State) (p : Port) : ∃ e : Event, (s.ignoreWord p).out = s.out ++ [e] ∧ e.port = p := by
  cases p <;> exact ⟨_, rfl, rfl⟩

/-- With nothing to fetch, a step changes nothing (R57, R200). -/
theorem step_of_fetch_none {s : State} (hf : s.fetch = none) : step s = .next s := by
  simp only [step, hf]

/-- A step that fetches a word hands out one outcome on the word's port, and leaves at the ports what the fetch left there. -/
theorem step_of_fetch {s s' : State} {p : Port} {w : Word} (hf : s.fetch = some (p, w, s')) :
    ∃ (t : State) (e : Event), step s = .next t ∧ s'.SameQueues t ∧ t.out = s.out ++ [e] ∧ e.port = p := by
  rw [← (State.fetch_out hf).1]
  by_cases hrun : ∃ i, decode w = .ok i ∧ i.port = p
  · obtain ⟨i, hd, rfl⟩ := hrun
    obtain ⟨t, he⟩ := exec_next i s'
    obtain ⟨e, hout, hport⟩ := exec_out he
    exact ⟨t, e, (step_exec hf hd rfl).trans he, exec_sameQueues he, hout, hport⟩
  · obtain ⟨e, hout, hport⟩ := s'.ignoreWord_out p
    exact ⟨_, e, step_ignore hf fun i hd hp => hrun ⟨i, hd, hp⟩, s'.ignoreWord_sameQueues p, hout, hport⟩

/-- Settles O14: only the fetch takes a word, the oldest of one port. -/
theorem portsKeepTheirOrder : Obligations.PortsKeepTheirOrder := by
  intro s t hstep
  cases hf : s.fetch with
  | none =>
    obtain ⟨hctl, haud⟩ := State.fetch_eq_none.mp hf
    rw [step_of_fetch_none hf] at hstep
    cases hstep
    exact .inl ⟨hctl, haud, rfl⟩
  | some taken =>
    obtain ⟨p, w, s'⟩ := taken
    obtain ⟨u, -, hu, ⟨hctl, haud, -⟩, -⟩ := step_of_fetch hf
    rw [hu] at hstep
    cases hstep
    obtain ⟨ws, _, -, hw, rfl⟩ | ⟨a, as, _, -, ha, -, rfl⟩ := s.fetch_cases hf
    · exact .inr (.inl ⟨w, by rw [hw, hctl], haud⟩)
    · exact .inr (.inr ⟨a, by rw [ha, haud], hctl⟩)

/-! ### Every interleaving has a schedule (R59) -/

/-- The ports can be served in this order until both are empty: each has as many words waiting as the order names it, and, while both have
one, the schedule is the order itself. Once one port is empty no grant is asked for any more. -/
structure State.CanServe (s : State) (ports : List Port) : Prop where
  control : ports.count .control = s.ctlIn.length
  audio : ports.count .audio = s.audIn.length
  sched : s.ctlIn ≠ [] → s.audIn ≠ [] → s.sched = ports

theorem State.CanServe.of_sameQueues {s t : State} {ports : List Port} (h : s.CanServe ports) (e : s.SameQueues t) : t.CanServe ports := by
  obtain ⟨hctl, haud, hsched⟩ := e
  exact ⟨hctl ▸ h.control, haud ▸ h.audio, by rw [hctl, haud, hsched]; exact h.sched⟩

theorem State.fetch_of_audIn_nil {s : State} {w : Word} {ws : List Word} (hctl : s.ctlIn = w :: ws) (haud : s.audIn = []) :
    s.fetch = some (s.takeControl w ws) := by
  simp only [State.fetch, hctl, haud]

theorem State.fetch_of_ctlIn_nil {s : State} {a : AudioCmd} {as : List AudioCmd} (hctl : s.ctlIn = []) (haud : s.audIn = a :: as) :
    s.fetch = some (s.takeAudio a as) := by
  simp only [State.fetch, hctl, haud]

/-- When both ports have a word waiting, the schedule's first entry is the port served, and is used up. -/
theorem State.fetch_of_sched {s : State} {p : Port} {ports : List Port} (hctl : s.ctlIn ≠ []) (haud : s.audIn ≠ [])
    (hsched : s.sched = p :: ports) : ∃ w s', s.fetch = some (p, w, s') ∧ s'.sched = ports := by
  obtain ⟨w, ws, hctl⟩ := List.exists_cons_of_ne_nil hctl
  obtain ⟨a, as, haud⟩ := List.exists_cons_of_ne_nil haud
  have hdrop : s.dropGrant.sched = ports := congrArg List.tail hsched
  cases p <;> simp only [State.fetch, hctl, haud, State.granted, hsched] <;> exact ⟨_, _, rfl, hdrop⟩

/-- The first port of an order that can be served is the one served. -/
theorem State.CanServe.fetch_first {s : State} {p : Port} {ports : List Port} (h : s.CanServe (p :: ports)) :
    ∃ w s', s.fetch = some (p, w, s') ∧ (s.ctlIn ≠ [] → s.audIn ≠ [] → s'.sched = ports) := by
  obtain ⟨hcontrol, haudio, hsched⟩ := h
  cases hctl : s.ctlIn with
  | nil =>
    cases haud : s.audIn with
    | nil => cases p <;> simp [hctl, haud] at hcontrol haudio
    | cons a as =>
      obtain rfl : p = .audio := by cases p <;> simp [hctl] at hcontrol ⊢
      exact ⟨_, _, State.fetch_of_ctlIn_nil hctl haud, fun hne => absurd rfl hne⟩
  | cons w ws =>
    cases haud : s.audIn with
    | nil =>
      obtain rfl : p = .control := by cases p <;> simp [haud] at haudio ⊢
      exact ⟨_, _, State.fetch_of_audIn_nil hctl haud, fun _ hne => absurd rfl hne⟩
    | cons a as =>
      have hctl : s.ctlIn ≠ [] := by simp [hctl]
      have haud : s.audIn ≠ [] := by simp [haud]
      obtain ⟨w, s', hf, hrest⟩ := State.fetch_of_sched hctl haud (hsched hctl haud)
      exact ⟨w, s', hf, fun _ _ => hrest⟩

/-- After the first port of the order is served, the rest of the order can be served. -/
theorem State.CanServe.fetch {s : State} {p : Port} {ports : List Port} (h : s.CanServe (p :: ports)) :
    ∃ w s', s.fetch = some (p, w, s') ∧ s'.CanServe ports := by
  obtain ⟨w, s', hf, hsched⟩ := h.fetch_first
  refine ⟨w, s', hf, ?_⟩
  obtain ⟨hcontrol, haudio, -⟩ := h
  obtain ⟨ws, _, rfl, hw, rfl⟩ | ⟨a, as, _, rfl, ha, -, rfl⟩ := s.fetch_cases hf
  · exact ⟨by simpa [hw] using hcontrol, by simpa using haudio, fun _ => hsched (by simp [hw])⟩
  · exact ⟨by simpa using hcontrol, by simpa [ha] using haudio, fun hctl _ => hsched hctl (by simp [ha])⟩

theorem run_succ_of_step {s t : State} (h : step s = .next t) (k : Nat) :
    Host.Core.run Sys2Proof.core (k + 1) s = Host.Core.run Sys2Proof.core k t := by
  have hcore : Sys2Proof.core.step s = .next t := h
  simp only [Host.Core.run, hcore]

/-- A run serves an order that can be served, one word a step. -/
theorem State.CanServe.run {s : State} {ports : List Port} (h : s.CanServe ports) :
    ∃ (t : State) (events : List Event), Host.Core.run Sys2Proof.core ports.length s = .next t ∧
      t.ctlIn = [] ∧ t.audIn = [] ∧ t.out = s.out ++ events ∧ events.map Event.port = ports := by
  induction ports generalizing s with
  | nil =>
    exact ⟨s, [], rfl, List.length_eq_zero_iff.mp h.control.symm, List.length_eq_zero_iff.mp h.audio.symm,
      (List.append_nil _).symm, rfl⟩
  | cons p ports ih =>
    obtain ⟨w, s', hf, hrest⟩ := h.fetch
    obtain ⟨u, e, hstep, hqueues, hout, rfl⟩ := step_of_fetch hf
    obtain ⟨t, events, hrun, hctl, haud, hevents, rfl⟩ := ih (hrest.of_sameQueues hqueues)
    refine ⟨t, e :: events, (run_succ_of_step hstep _).trans hrun, hctl, haud, ?_, rfl⟩
    rw [hevents, hout, List.append_assoc, List.singleton_append]

/-- Settles O15: the schedule is the order of the ports itself. -/
theorem everyInterleavingIsPossible : Obligations.EveryInterleavingIsPossible := by
  intro s ports hcontrol haudio
  have hserve : State.CanServe { s with sched := ports } ports := ⟨hcontrol, haudio, fun _ _ => rfl⟩
  exact ⟨ports, hserve.run⟩

/-! ### The release of the blocks (R56) -/

/-- Only an instruction of the audio port marks blocks (R75). -/
theorem port_of_marks {i : Instr} {n : BlockName} (h : i.marks n = true) : i.port = .audio := by
  cases i with
  | mixCycle => rfl
  | _ => simp [Instr.marks] at h

/-- A cycle releases the blocks presented with it and those it marks. -/
theorem exec_audio_releases {i : Instr} {s : State} (hp : i.port = .audio) :
    ∃ (t : State) (e : Event), exec i s = .next t ∧ t.out = s.out ++ [e] ∧ t.lane = Blocks.none ∧ e.released.Nodup ∧
      ∀ n, n ∈ e.released ↔ s.lane.has n = true ∨ i.marks n = true := by
  cases i with
  | mixCycle t l r =>
    obtain ⟨u, he⟩ := exec_next (.mixCycle t l r) s
    obtain ⟨_, _, _, rfl, -⟩ := exec_mixCycle_cases he
    exact ⟨_, _, he, rfl, rfl, releases_nodup t l r s.lane, fun _ => mem_releases.trans or_comm⟩
  | _ => cases hp

/-- Settles O17: a cycle releases what is presented or marked; an ignored word marks nothing and releases what is presented. -/
theorem everyBlockIsReleasedOnce : Obligations.EveryBlockIsReleasedOnce := by
  intro s s' w hf
  rw [← (State.fetch_out hf).1]
  by_cases hrun : ∃ i, decode w = .ok i ∧ i.port = .audio
  · obtain ⟨i, hd, hp⟩ := hrun
    obtain ⟨t, e, he, hout, hlane, hnodup, hmem⟩ := exec_audio_releases (s := s') hp
    refine ⟨t, e, (step_exec hf hd hp).trans he, hout, hlane, hnodup, fun n => ?_⟩
    simp only [hmem, hd, Except.ok.injEq, exists_eq_left']
  · have hignored : ∀ i, decode w = .ok i → i.port ≠ .audio := fun i hd hp => hrun ⟨i, hd, hp⟩
    have hnoMarks : ∀ n, ¬ ∃ i, decode w = .ok i ∧ i.marks n = true :=
      fun n ⟨i, hd, hm⟩ => hignored i hd (port_of_marks hm)
    refine ⟨_, _, step_ignore hf hignored, rfl, rfl, blockNames_nodup s'.lane, fun n => ?_⟩
    exact mem_blockNames.trans (or_iff_left (hnoMarks n)).symm

end Sys2Proof.Machine
end

section
/-! SUPPORT. The statements about the words of the two ports (30_encoding.md R70 to R82): the fields of a word, the rows of the opcode map, the
decoder and the encoder, the words a step ignores, the byte-wide link, and the response words. -/

namespace Sys2Proof

/-! ### Fields of a word (R70 to R78) -/

/-- The bits of a placed field: its own from its lowest place on, and 0 elsewhere. -/
theorem getLsbD_place {k : Nat} (v : BitVec k) (lo i : Nat) :
    (place v lo).getLsbD i = (decide (i < 32) && decide (lo ≤ i) && v.getLsbD (i - lo)) := by
  unfold place
  by_cases hi : i < 32 <;> by_cases hl : lo ≤ i <;> simp [hi, hl]

/-- A field is read back where it was placed. -/
theorem extractLsb'_place_same {k lo : Nat} (v : BitVec k) (h : lo + k ≤ 32) : (place v lo).extractLsb' lo k = v := by
  refine BitVec.eq_of_getLsbD_eq fun i hi => ?_
  have hlo : lo + i < 32 := by omega
  simp only [BitVec.getLsbD_extractLsb', getLsbD_place, hi, hlo, Nat.le_add_right, Nat.add_sub_cancel_left, decide_true, Bool.true_and]

/-- Beside the field, 0 is read. -/
theorem extractLsb'_place_beside {k lo n lo' : Nat} (v : BitVec k) (h : lo' + n ≤ lo ∨ lo + k ≤ lo') :
    (place v lo).extractLsb' lo' n = 0 := by
  refine BitVec.eq_of_getLsbD_eq fun i hi => ?_
  rw [BitVec.getLsbD_extractLsb', getLsbD_place]
  rcases h with h | h
  · simp [show ¬ lo ≤ lo' + i by omega]
  · simp [BitVec.getLsbD_of_ge v (lo' + i - lo) (by omega)]

/-- A mask of ones keeps the field under it. -/
theorem and_place_allOnes (w : Word) (lo k : Nat) :
    w &&& place (BitVec.allOnes k) lo = place (w.extractLsb' lo k) lo := by
  refine BitVec.eq_of_getLsbD_eq fun i hi => ?_
  by_cases hl : lo ≤ i <;>
    simp [-BitVec.getLsbD_eq_getElem, BitVec.getLsbD_and, getLsbD_place, hi, hl, Bool.and_comm]

/-- A mask over the op and one more field says what stands in the two. -/
theorem and_mask_eq_iff {mask word : Word} {c : BitVec 4} (lo k : Nat) (w : Word) (h : lo + k ≤ 28)
    (hmask : mask = place (BitVec.allOnes 4) 28 ||| place (BitVec.allOnes k) lo) (hword : word = place c 28) :
    w &&& mask = word ↔ opField w = c ∧ w.extractLsb' lo k = 0 := by
  rw [hmask, hword, BitVec.and_or_distrib_left, and_place_allOnes, and_place_allOnes, opField]
  constructor
  · intro e
    have hop := congrArg (BitVec.extractLsb' 28 4) e
    have hres := congrArg (BitVec.extractLsb' lo k) e
    simp only [BitVec.extractLsb'_or] at hop hres
    rw [extractLsb'_place_same _ (by omega), extractLsb'_place_same _ (by omega), extractLsb'_place_beside _ (by omega)] at hop
    rw [extractLsb'_place_same _ (by omega), extractLsb'_place_beside _ (by omega), extractLsb'_place_beside _ (by omega)] at hres
    exact ⟨by simpa using hop, by simpa using hres⟩
  · rintro ⟨rfl, hres⟩
    simp [hres, place]

/-! ### The rows of the opcode map as formats (R72 to R77, R79) -/

/-- The op of a row (R79). -/
def Op.code : Op → BitVec 4
  | .nop => 0x0 | .setKey => 0x1 | .setMute => 0x2 | .denoiseUpdate => 0x3 | .pollTick => 0x4
  | .mixCycle => 0x5 | .readStatus => 0x6 | .readChannel => 0x7 | .reset => 0xF

/-- The reserved bits of a row's format are all 0 (R72 to R77). -/
def Op.ReservedZero (w : Word) : Op → Prop
  | .nop | .readStatus | .reset => w.extractLsb' 0 28 = 0
  | .setKey | .setMute => w.extractLsb' 1 27 = 0
  | .denoiseUpdate => w.extractLsb' 16 8 = 0
  | .pollTick => w.extractLsb' 16 12 = 0
  | .mixCycle => w.extractLsb' 3 25 = 0
  | .readChannel => w.extractLsb' 0 24 = 0

/-- The instruction of a row with the operands that stand in a word's fields (R72 to R78). -/
def Op.read : Op → Word → Instr
  | .nop, _ => .nop
  | .setKey, w => .setKey (w.getLsbD 0)
  | .setMute, w => .setMute (w.getLsbD 0)
  | .denoiseUpdate, w => .denoiseUpdate (chField w) (rawField w)
  | .pollTick, w => .pollTick (rawField w)
  | .mixCycle, w => .mixCycle (w.getLsbD 0) (w.getLsbD 1) (w.getLsbD 2)
  | .readStatus, _ => .readStatus
  | .readChannel, w => .readChannel (chField w)
  | .reset, _ => .reset

@[simp] theorem Op.read_op (o : Op) (w : Word) : (o.read w).op = o := by cases o <;> rfl

theorem Op.code_injective {o o' : Op} (h : o.code = o'.code) : o = o' := by
  revert h; cases o <;> cases o' <;> decide

theorem Op.exists_iff {P : Op → Prop} : (∃ o, P o) ↔ P .nop ∨ P .setKey ∨ P .setMute ∨ P .denoiseUpdate ∨ P .pollTick ∨
    P .mixCycle ∨ P .readStatus ∨ P .readChannel ∨ P .reset := by
  constructor
  · rintro ⟨o, h⟩; cases o <;> simp [h]
  · rintro (h | h | h | h | h | h | h | h | h) <;> exact ⟨_, h⟩

/-- The match and mask of a row say: this op, and every reserved bit 0. -/
theorem Op.match_iff (o : Op) (w : Word) : w &&& o.mask = o.matchWord ↔ opField w = o.code ∧ o.ReservedZero w := by
  cases o with
  | nop | readStatus | reset => exact and_mask_eq_iff 0 28 w (by decide) rfl rfl
  | setKey | setMute => exact and_mask_eq_iff 1 27 w (by decide) rfl rfl
  | denoiseUpdate => exact and_mask_eq_iff 16 8 w (by decide) rfl rfl
  | pollTick => exact and_mask_eq_iff 16 12 w (by decide) rfl rfl
  | mixCycle => exact and_mask_eq_iff 3 25 w (by decide) rfl rfl
  | readChannel => exact and_mask_eq_iff 0 24 w (by decide) rfl rfl

/-- The decoder's answer `ok` is the reading of a row that the word matches. -/
theorem decode_eq_ok_iff_exists_match {w : Word} {i : Instr} :
    decode w = .ok i ↔ ∃ o : Op, w &&& o.mask = o.matchWord ∧ i = o.read w := by
  simp only [decode_eq_ok, Op.match_iff, and_assoc, Op.exists_iff]
  rfl

/-- At most one row matches a word: a row's op is its own. -/
theorem Op.eq_of_match {o o' : Op} {w : Word} (h : w &&& o.mask = o.matchWord) (h' : w &&& o'.mask = o'.matchWord) : o = o' :=
  have ⟨hop, _⟩ := (o.match_iff w).mp h
  have ⟨hop', _⟩ := (o'.match_iff w).mp h'
  code_injective (hop.symm.trans hop')

theorem decode_of_match {o : Op} {w : Word} (h : w &&& o.mask = o.matchWord) : decode w = .ok (o.read w) :=
  decode_eq_ok_iff_exists_match.mpr ⟨o, h, rfl⟩

theorem decode_eq_error_iff {w : Word} : (∃ e, decode w = .error e) ↔ ∀ o : Op, w &&& o.mask ≠ o.matchWord := by
  cases h : decode w with
  | ok i =>
    obtain ⟨o, ho, -⟩ := decode_eq_ok_iff_exists_match.mp h
    simpa using ⟨o, ho⟩
  | error e =>
    refine iff_of_true ⟨e, rfl⟩ fun o ho => ?_
    rw [decode_of_match ho] at h
    cases h

/-! ### The encoder -/

/-- The word of an instruction matches the instruction's row (R79). -/
theorem encode_match (i : Instr) : encode i &&& i.op.mask = i.op.matchWord := by
  cases i with
  | nop => exact Laws.Encoding.nop
  | setKey v => exact Laws.Encoding.setKey v
  | setMute v => exact Laws.Encoding.setMute v
  | denoiseUpdate ch raw => exact Laws.Encoding.denoiseUpdate ch raw
  | pollTick raw => exact Laws.Encoding.pollTick raw
  | mixCycle t l r => exact Laws.Encoding.mixCycle t l r
  | readStatus => exact Laws.Encoding.readStatus
  | readChannel ch => exact Laws.Encoding.readChannel ch
  | reset => exact Laws.Encoding.reset

/-- Each operand is read back from the place the encoder gives it. -/
theorem read_encode (i : Instr) : i.op.read (encode i) = i := by
  cases i with
  | nop | readStatus | reset => rfl
  | setKey v | setMute v => cases v <;> rfl
  | mixCycle t l r => cases t <;> cases l <;> cases r <;> rfl
  | denoiseUpdate | pollTick | readChannel =>
    simp (disch := decide) [Instr.op, Op.read, encode, chField, rawField, BitVec.extractLsb'_or, extractLsb'_place_same,
      extractLsb'_place_beside]

/-- Settles O2: the word matches the instruction's row, and that row's fields hold the operands. -/
theorem decodeOfEncode : Obligations.DecodeOfEncode := by
  intro i
  rw [decode_of_match (encode_match i), read_encode]

/-- A bit of a word, placed where it stands. -/
theorem place_getLsbD (w : Word) (n : Nat) : place (BitVec.ofBool (w.getLsbD n)) n = w &&& place (BitVec.allOnes 1) n := by
  rw [and_place_allOnes]
  congr 1
  exact BitVec.eq_of_getLsbD_eq fun i hi => by simp [show i = 0 by omega]

/-- The encoder puts a row's match bits beside a word's operands, which are the word's bits outside the row's mask. -/
theorem encode_read (o : Op) (w : Word) : encode (o.read w) = o.matchWord ||| (w &&& ~~~o.mask) := by
  cases o with
  | nop | readStatus | reset => simp [Op.read, encode, Op.matchWord, Op.mask]
  | setKey | setMute | denoiseUpdate | pollTick | mixCycle | readChannel =>
    simp only [Op.read, encode, chField, rawField, place_getLsbD, ← and_place_allOnes, BitVec.or_assoc, ← BitVec.and_or_distrib_left]
    rfl

/-- Settles O3: the row's match bits and the bits outside its mask are all the bits of a word that matches it. -/
theorem encodeOfDecode : Obligations.EncodeOfDecode := by
  intro w i h
  obtain ⟨o, hm, rfl⟩ := decode_eq_ok_iff_exists_match.mp h
  rw [encode_read, ← hm, ← BitVec.and_or_distrib_left, BitVec.or_not_self, BitVec.and_allOnes]

/-! ### The opcode map (R79) -/

/-- Settles O4: the decoder answers by the row that matches, and the op tells the rows apart. -/
theorem decodeAgreesWithOpcodeMap : Obligations.DecodeAgreesWithOpcodeMap := by
  refine fun w => ⟨fun o => ⟨fun h => ⟨o.read w, decode_of_match h, o.read_op w⟩, ?_⟩, fun _ _ => Op.eq_of_match, decode_eq_error_iff.mpr⟩
  rintro ⟨i, hd, rfl⟩
  obtain ⟨o, hm, rfl⟩ := decode_eq_ok_iff_exists_match.mp hd
  rwa [Op.read_op]

end Sys2Proof

namespace Sys2Proof.Machine

/-! ### Ignored words: the reserved encodings (R80) and the other port's commands (R71) -/

/-- What an ignored word leaves: no register changes, and the one outcome is `ignore` (R174). -/
theorem step_ignored {s s' : State} {p : Port} {w : Word} (hf : s.fetch = some (p, w, s'))
    (h : ∀ i, decode w = .ok i → i.port ≠ p) :
    ∃ t released, step s = .next t ∧ s.SameRegs t ∧ t.out = s.out ++ [⟨p, .ignore, released⟩] := by
  have hregs := (State.fetch_sameRegs hf).trans (s'.ignoreWord_sameRegs p)
  rw [step_ignore hf h, ← (State.fetch_out hf).1]
  cases p with
  | control => exact ⟨_, _, rfl, hregs, rfl⟩
  | audio => exact ⟨_, _, rfl, hregs, rfl⟩

/-- Settles O5: a rejected word matches no row, and the op says which reserved bits that leaves; a step ignores it on either port. -/
theorem reservedEncodingsAreIgnored : Obligations.ReservedEncodingsAreIgnored := by
  intro w op
  refine ⟨?_, fun e s s' p he hf => step_ignored hf fun i hi => ?_⟩
  · have hop : (opField w).toNat = op := rfl
    have hlt : op < 16 := (opField w).isLt
    clear_value op
    simp only [decode_eq_error_iff, ne_eq, ← not_exists, Op.match_iff, Op.exists_iff, Op.code, Op.ReservedZero,
      ← BitVec.toNat_inj (x := opField w), hop, BitVec.reduceToNat]
    interval_cases op <;>
      simp only [Nat.reduceEqDiff, Nat.reduceLeDiff, zero_ne_one, one_ne_zero, OfNat.ofNat_ne_zero, OfNat.ofNat_ne_one,
        OfNat.zero_ne_ofNat, OfNat.one_ne_ofNat, true_and, false_and, and_false, and_self, or_false, false_or, or_true,
        not_false_eq_true]
  · rw [he] at hi
    cases hi

theorem exists_mixCycle_iff (i : Instr) : (∃ t l r, i = .mixCycle t l r) ↔ i.port = .audio := by
  rw [port_eq_audio_iff]
  cases i <;> simp [Instr.op]

/-- The own port of an instruction: the audio port for MIX_CYCLE and no other (R71). -/
theorem port_eq_iff (i : Instr) (p : Port) : i.port = p ↔ ((∃ t l r, i = .mixCycle t l r) ↔ p = .audio) := by
  rw [exists_mixCycle_iff]
  cases i.port <;> cases p <;> decide

/-- Settles O12: a word of its own port runs, any other is ignored. -/
theorem portsAcceptTheirOwnCommands : Obligations.PortsAcceptTheirOwnCommands := by
  intro s s' p w i hf hd own
  have hown : i.port = p ↔ own := port_eq_iff i p
  refine ⟨fun h => step_exec hf hd (hown.mpr h), fun h => step_ignored hf fun j hj => ?_⟩
  obtain rfl : i = j := Except.ok.inj (hd.symm.trans hj)
  exact mt hown.mp h

/-! ### The byte-wide link (R53, R82) -/

/-- The bytes of a word, put together again (R53). -/
theorem append_wordBytes (w : Word) :
    w.extractLsb' 24 8 ++ w.extractLsb' 16 8 ++ w.extractLsb' 8 8 ++ w.extractLsb' 0 8 = w := by
  have join {lo k lo' k' : Nat} (h : lo' = lo + k) : w.extractLsb' lo' k' ++ w.extractLsb' lo k = w.extractLsb' lo (k' + k) :=
    BitVec.extractLsb'_append_extractLsb'_eq_extractLsb' h
  rw [join (by decide), join (by decide), join (by decide)]
  exact BitVec.extractLsb'_eq_self

theorem decodeBytes_wordBytes (w : Word) (rest : List Byte) :
    decodeBytes (wordBytes w ++ rest) = (decode w).map (·, rest) := by
  simp only [wordBytes, List.cons_append, List.nil_append, decodeBytes, append_wordBytes]
  cases decode w <;> rfl

theorem length_of_decodeBytes {bs rest : List Byte} {i : Instr} (h : decodeBytes bs = .ok (i, rest)) :
    bs.length = rest.length + 4 := by
  unfold decodeBytes at h
  split at h
  · split at h
    · cases h; rfl
    · cases h
  · cases h

/-- Settles O6: every path of the decoder that answers takes four bytes, and a word's four bytes decode as the word does. -/
theorem decoderTakesFourBytes : Obligations.DecoderTakesFourBytes :=
  ⟨fun _ _ _ => length_of_decodeBytes, fun w i rest h => by rw [decodeBytes_wordBytes, h]; rfl,
    fun w e rest h => by rw [decodeBytes_wordBytes, h]; rfl⟩

/-! ### The response words (R81), and words written by hand -/

/-- Settles O7: each field is read back where it is placed, and 0 beside the fields. -/
theorem responseLayouts : Obligations.ResponseLayouts := by
  refine ⟨fun ch rep step => ?_, fun mc idx mute key => ?_, fun ch en ls f => ?_⟩ <;>
    simp (disch := decide) [drWord, srWord, crWord, BitVec.extractLsb'_or, extractLsb'_place_same, extractLsb'_place_beside,
      -BitVec.getLsbD_eq_getElem, getLsbD_place]

/-- Settles O1: the decoder evaluated on seven words. -/
theorem handWrittenWordsDecode : Obligations.HandWrittenWordsDecode := by
  unfold Obligations.HandWrittenWordsDecode
  decide

end Sys2Proof.Machine
end

section
/-! SUPPORT. The statements about assembler text (30_encoding.md R83, R84): numbers and operands, lines, pseudo-commands. -/

namespace Sys2Proof.Machine

/-! ### Operands -/

/-- What an operand made of a number can be. -/
theorem map_numberBelow_eq_some {α : Type} {limit : Nat} {t : Text} {f : Nat → α} {x : α} :
    (numberBelow limit t).map f = some x ↔ ∃ v, number t = some v ∧ v < limit ∧ x = f v := by
  simp [numberBelow, Option.filter_eq_some_iff, and_assoc, eq_comm (b := x)]

theorem number_hex {ds : List Nat} (hne : ds ≠ []) (h : ∀ d ∈ ds, d < 16) :
    number ('0' :: 'x' :: ds.map Nat.digitChar) = some (Nat.ofDigits 16 ds.reverse) := by
  cases ds with
  | nil => exact absurd rfl hne
  | cons d ds =>
    show digits 16 hexDigit 0 ((d :: ds).map Nat.digitChar) = _
    rw [digits_map_digitChar _ _ _ fun e he => hexDigit_digitChar e (h e he)]
    simp

theorem digitChar_ne_x : ∀ d < 10, Nat.digitChar d ≠ 'x' := by decide

theorem number_decimal {ds : List Nat} (hne : ds ≠ []) (h : ∀ d ∈ ds, d < 10) :
    number (ds.map Nat.digitChar) = some (Nat.ofDigits 10 ds.reverse) := by
  have hdigits : number (ds.map Nat.digitChar) = digits 10 decDigit 0 (ds.map Nat.digitChar) := by
    unfold number
    split
    · simp_all
    · rename_i heq
      obtain ⟨_, _, rfl, -, htl⟩ := List.map_eq_cons_iff.mp heq
      obtain ⟨_, _, rfl, hx, -⟩ := List.map_eq_cons_iff.mp htl
      exact absurd hx (digitChar_ne_x _ (h _ (by simp)))
    · rename_i heq
      rw [← heq]
  rw [hdigits, digits_map_digitChar _ _ _ fun d hd => decDigit_digitChar d (h d hd)]
  simp

theorem assembleOp_setKey (a : Text) : assembleOp "SET_KEY".toList [a] = (flagOperand a).map .setKey := rfl
theorem assembleOp_setMute (a : Text) : assembleOp "SET_MUTE".toList [a] = (flagOperand a).map .setMute := rfl
theorem assembleOp_pollTick (a : Text) : assembleOp "POLL_TICK".toList [a] = (rawOperand a).map .pollTick := rfl
theorem assembleOp_readChannel (a : Text) : assembleOp "READ_CHANNEL".toList [a] = (chOperand a).map .readChannel := rfl
theorem assembleOp_denoiseUpdate (a b : Text) : assembleOp "DENOISE_UPDATE".toList [a, b] =
    (chOperand a).bind fun ch => (rawOperand b).map fun raw => .denoiseUpdate ch raw := rfl

theorem setOperand_letters (t l r : Bool) :
    let letters : List Text := (if t then [['T']] else []) ++ (if l then [['L']] else []) ++ (if r then [['R']] else [])
    setOperand (if letters = [] then ['-'] else ['|'].intercalate letters) = some (.mixCycle t l r) := by
  cases t <;> cases l <;> cases r <;> decide

theorem mixCycle_of_setOperand {a : Text} {i : Instr} (h : setOperand a = some i) : ∃ t l r, i = .mixCycle t l r := by
  obtain ⟨⟨t, l, r⟩, -, rfl⟩ := Option.map_eq_some_iff.mp h
  exact ⟨t, l, r, rfl⟩

theorem assembleOp_denoiseUpdate_eq_some {a b : Text} {i : Instr} : assembleOp "DENOISE_UPDATE".toList [a, b] = some i ↔
    ∃ ch raw, number a = some ch ∧ number b = some raw ∧ ch < 16 ∧ raw < 65536 ∧
      i = .denoiseUpdate (BitVec.ofNat 4 ch) (BitVec.ofNat 16 raw) := by
  simp only [assembleOp_denoiseUpdate, Option.bind_eq_some_iff, Option.map_eq_some_iff (f := Instr.denoiseUpdate _), chOperand, rawOperand,
    map_numberBelow_eq_some]
  constructor
  · rintro ⟨_, ⟨ch, hch, hch16, rfl⟩, _, ⟨raw, hraw, hraw16, rfl⟩, rfl⟩
    exact ⟨ch, raw, hch, hraw, hch16, hraw16, rfl⟩
  · rintro ⟨ch, raw, hch, hraw, hch16, hraw16, rfl⟩
    exact ⟨_, ⟨ch, hch, hch16, rfl⟩, _, ⟨raw, hraw, hraw16, rfl⟩, rfl⟩

/-- Settles O9: each operand form by the lemma about it; the field's values are those below the limit of its number. -/
theorem assemblerOperandForms : Obligations.AssemblerOperandForms := by
  refine ⟨fun _ => number_decimal, fun _ => number_hex, fun a i => ?_, fun a i => ?_, fun a i => ?_, fun a i => ?_,
    fun _ _ _ => assembleOp_denoiseUpdate_eq_some, ⟨rfl, rfl, rfl⟩, setOperand_letters, fun _ _ => mixCycle_of_setOperand⟩
  · rw [assembleOp_setKey, flagOperand, Option.map_map, map_numberBelow_eq_some]; rfl
  · rw [assembleOp_setMute, flagOperand, Option.map_map, map_numberBelow_eq_some]; rfl
  · rw [assembleOp_pollTick, rawOperand, Option.map_map, map_numberBelow_eq_some]; rfl
  · rw [assembleOp_readChannel, chOperand, Option.map_map, map_numberBelow_eq_some]; rfl

/-! ### Lines -/

/-- A mnemonic or an operand of a line: not empty, and without blanks, commas and comment characters. -/
def IsWord (w : Text) : Prop := w ≠ [] ∧ ∀ c ∈ w, isBlank c = false ∧ c ≠ ',' ∧ c ≠ ';'

/-- A text that begins and ends with a character that is no blank. -/
def Tight (t : Text) : Prop := ∃ a m b, t = a :: m ∧ t.getLast? = some b ∧ isBlank a = false ∧ isBlank b = false

theorem Tight.trim {t : Text} (h : Tight t) : trim t = t := by
  obtain ⟨a, m, b, rfl, hl, ha, hb⟩ := h
  exact trim_eq_self ha hl hb

theorem Tight.append {t u : Text} (ht : Tight t) (hu : Tight u) (mid : Text) : Tight (t ++ mid ++ u) := by
  obtain ⟨a, m, _, rfl, -, ha, -⟩ := ht
  obtain ⟨_, _, b, rfl, hl, -, hb⟩ := hu
  exact ⟨a, m ++ mid ++ _, b, rfl, by rw [List.getLast?_append, hl]; rfl, ha, hb⟩

theorem IsWord.tight {w : Text} (h : IsWord w) : Tight w := by
  obtain ⟨hne, hc⟩ := h
  obtain ⟨a, m, rfl⟩ := List.exists_cons_of_ne_nil hne
  have hl := List.getLast?_eq_getLast_of_ne_nil hne
  exact ⟨a, m, _, rfl, hl, (hc a (by simp)).1, (hc _ (List.getLast_mem hne)).1⟩

/-- Operands as a line writes them: a comma and a blank between two. -/
def commaText (ops : List Text) : Text := [',', ' '].intercalate ops

theorem commaText_cons_cons (w w' : Text) (ws : List Text) :
    commaText (w :: w' :: ws) = w ++ [',', ' '] ++ commaText (w' :: ws) := List.intercalate_cons_cons

theorem commaText_tight {w : Text} {ws : List Text} (h : ∀ x ∈ w :: ws, IsWord x) : Tight (commaText (w :: ws)) := by
  induction ws generalizing w with
  | nil => simpa [commaText] using (h w (by simp)).tight
  | cons w' ws ih =>
    rw [commaText_cons_cons]
    exact (h w (by simp)).tight.append (ih fun x hx => h x (by simp [hx])) _

theorem IsWord.noComment {w : Text} (h : IsWord w) : ∀ c ∈ w, c ≠ ';' := fun c hc => (h.2 c hc).2.2

theorem commaText_noComment {w : Text} {ws : List Text} (h : ∀ x ∈ w :: ws, IsWord x) : ∀ c ∈ commaText (w :: ws), c ≠ ';' := by
  induction ws generalizing w with
  | nil => simpa [commaText] using (h w (by simp)).noComment
  | cons w' ws ih =>
    rw [commaText_cons_cons]
    simp only [List.forall_mem_append]
    exact ⟨⟨(h w (by simp)).noComment, by simp⟩, ih fun x hx => h x (by simp [hx])⟩

/-- A blank at the front of a list of pieces is trimmed away. -/
theorem map_trim_cut_space (t : Text) : (cut ',' (' ' :: t)).map trim = (cut ',' t).map trim := by
  cases hc : cut ',' t with
  | nil => exact absurd hc (cut_ne_nil _ t)
  | cons piece pieces => simp [cut, hc]

/-- Operands cut at the commas are the operands. -/
theorem map_trim_cut_commaText {w : Text} {ws : List Text} (h : ∀ x ∈ w :: ws, IsWord x) :
    (cut ',' (commaText (w :: ws))).map trim = w :: ws := by
  obtain ⟨hw, hws⟩ := List.forall_mem_cons.mp h
  have hcomma : ∀ c ∈ w, c ≠ ',' := fun c hc => (hw.2 c hc).2.1
  induction ws generalizing w with
  | nil => simp [commaText, cut_eq_singleton hcomma, hw.tight.trim]
  | cons w' ws ih =>
    obtain ⟨hw', hws'⟩ := List.forall_mem_cons.mp hws
    rw [commaText_cons_cons, List.append_assoc, List.cons_append, cut_append hcomma, List.map_cons, hw.tight.trim]
    exact congrArg (w :: ·) ((map_trim_cut_space _).trans (ih hws hw' hws' fun c hc => (hw'.2 c hc).2.1))

/-- What a line writes after the mnemonic. -/
def operandText (ops : List Text) : Text := if ops = [] then [] else ' ' :: commaText ops

/-- A port's name and colon as a line begins with them (R83). -/
def prefixText : Port → Text
  | .control => "ctl:".toList
  | .audio => "audio:".toList

theorem prefixText_tight (p : Port) : Tight (prefixText p) := by
  cases p with
  | control => exact ⟨'c', _, ':', rfl, rfl, rfl, rfl⟩
  | audio => exact ⟨'a', _, ':', rfl, rfl, rfl, rfl⟩

theorem portPrefix_prefixText (p : Port) (t : Text) : portPrefix (prefixText p ++ t) = (some p, t) := by
  cases p <;> rfl

theorem trim_operandText {ops : List Text} (h : ∀ x ∈ ops, IsWord x) : trim (operandText ops) = commaText ops := by
  cases ops with
  | nil => rfl
  | cons w ws => exact (trim_space _).trans (commaText_tight h).trim

theorem body_tight {name : Text} {ops : List Text} (hname : IsWord name) (hops : ∀ x ∈ ops, IsWord x) :
    Tight (name ++ operandText ops) := by
  cases ops with
  | nil => simpa [operandText] using hname.tight
  | cons w ws => simpa [operandText] using hname.tight.append (commaText_tight hops) [' ']

theorem operandText_noComment {ops : List Text} (h : ∀ x ∈ ops, IsWord x) : ∀ c ∈ operandText ops, c ≠ ';' := by
  cases ops with
  | nil => simp [operandText]
  | cons w ws => exact List.forall_mem_cons.mpr ⟨by simp, commaText_noComment h⟩

theorem takeWhile_body {name : Text} (hname : IsWord name) (ops : List Text) :
    (name ++ operandText ops).takeWhile (fun c => !isBlank c) = name := by
  rw [List.takeWhile_append_of_pos fun c hc => by simp [(hname.2 c hc).1]]
  cases ops with
  | nil => simp [operandText]
  | cons w ws => simp [operandText, isBlank]

/-- The operands a line is read to have are those it writes. -/
theorem operands_commaText {ops : List Text} (h : ∀ x ∈ ops, IsWord x) :
    (if (commaText ops).isEmpty then [] else (cut ',' (commaText ops)).map trim) = ops := by
  cases ops with
  | nil => rfl
  | cons w ws =>
    obtain ⟨a, m, _, hcons, -⟩ := commaText_tight h
    rw [if_neg (by simp [hcons]), map_trim_cut_commaText h]

theorem prefixText_noComment (p : Port) : ∀ c ∈ prefixText p, c ≠ ';' := by
  have hall : (prefixText p).all (· != ';') = true := by cases p <;> rfl
  simpa using hall

/-- The port a line names is read off, and the text from the blank on is left. -/
theorem portPrefix_line (p : Port) {body : Text} (hbody : Tight body) (hcomment : ∀ c ∈ body, c ≠ ';') :
    portPrefix (trim (dropComment (prefixText p ++ [' '] ++ body))) = (some p, ' ' :: body) := by
  have hline : ∀ c ∈ prefixText p ++ [' '] ++ body, c ≠ ';' := by
    simp only [List.forall_mem_append]
    exact ⟨⟨prefixText_noComment p, by simp⟩, hcomment⟩
  rw [dropComment_eq_self hline, ((prefixText_tight p).append hbody _).trim, List.append_assoc, portPrefix_prefixText]
  rfl

theorem assembleLine_prefixed (p : Port) {name : Text} {ops : List Text} (hname : IsWord name) (hops : ∀ x ∈ ops, IsWord x) :
    assembleLine (prefixText p ++ [' '] ++ (name ++ operandText ops)) = (assembleOp name ops).map (some p, ·) := by
  have hbody := body_tight hname hops
  have hprefix := portPrefix_line p hbody
    (List.forall_mem_append.mpr ⟨hname.noComment, operandText_noComment hops⟩)
  simp only [assembleLine, hprefix, trim_space, hbody.trim, takeWhile_body hname, List.drop_left, trim_operandText hops,
    operands_commaText hops]

/-- Settles O59: the port, the mnemonic and the operands are each read back from where the line writes them. -/
theorem assemblerLines : Obligations.AssemblerLines := by
  refine ⟨fun p name ops h => ?_, fun line comment => ?_⟩
  · obtain ⟨hname, hops⟩ := List.forall_mem_cons.mp h
    rw [← assembleLine_prefixed p hname hops, List.append_assoc]
    cases p <;> rfl
  · unfold assembleLine
    rw [dropComment_append]

/-! ### Pseudo-commands (R84) -/

/-- Settles O8: the six expansions and the six lines evaluated. -/
theorem pseudoCommandsExpand : Obligations.PseudoCommandsExpand := by
  unfold Obligations.PseudoCommandsExpand
  decide

end Sys2Proof.Machine
end

section
/-! SUPPORT. The statements about the Tone Envelope Mixer (40_mixer.md): GAIN as an exact floor, the envelope step and the index along a ramp,
what an executed MIX_CYCLE leaves in the registers, sequences of cycles, and the two flag writes. -/

namespace Sys2Proof.Machine

/-! ### GAIN (R100, R101) -/

/-- The floored product lies between the sample and 0, since the window entry is at most 2^31 (R101). -/
theorem floor_between {s w : Int} (h : 0 ≤ w) (h' : w ≤ 2 ^ 31) : min s 0 ≤ 2 * s * w / 2 ^ 32 ∧ 2 * s * w / 2 ^ 32 ≤ max s 0 := by
  rcases le_total 0 s with hs | hs
  · have hlow : 0 ≤ s * w := mul_nonneg hs h
    have hhigh : s * w ≤ s * 2 ^ 31 := mul_le_mul_of_nonneg_left h' hs
    rw [mul_assoc]
    omega
  · have hhigh : s * w ≤ 0 := mul_nonpos_of_nonpos_of_nonneg hs h
    have hlow : s * 2 ^ 31 ≤ s * w := mul_le_mul_of_nonpos_left h' hs
    rw [mul_assoc]
    omega

theorem word_toInt_lt (w : Word) : w.toInt < 2 ^ 31 := BitVec.toInt_lt

theorem sample_toInt_bounds (s : Sample) : -2 ^ 15 ≤ s.toInt ∧ s.toInt < 2 ^ 15 := ⟨BitVec.le_toInt s, BitVec.toInt_lt⟩

/-- The quotient fits in 16 bits, so GAIN is the exact floor (R100). -/
theorem gain_toInt (s : Sample) {w : Word} (h : 0 ≤ w.toInt) : (gain s w).toInt = 2 * s.toInt * w.toInt / 2 ^ 32 := by
  have hfit := floor_between (s := s.toInt) h (word_toInt_lt w).le
  have hs := sample_toInt_bounds s
  rw [gain, BitVec.toInt_ofInt, mul_comm s.toInt 2]
  exact Int.bmod_eq_of_le (by omega) (by omega)

/-- Settles O23: the product is small because its factors are, and a quotient brackets its dividend. -/
theorem gainIsExactFloor : Obligations.GainIsExactFloor := by
  refine ⟨fun s w h => ?_, by decide⟩
  rw [gain_toInt s h]
  refine ⟨?_, Int.ediv_mul_le _ (by decide), Int.lt_ediv_add_one_mul_self _ (by decide)⟩
  have hs : (2 * s.toInt).natAbs ≤ 2 ^ 16 := by have := sample_toInt_bounds s; omega
  have hw : w.toInt.natAbs < 2 ^ 31 := by have := word_toInt_lt w; omega
  calc (2 * s.toInt * w.toInt).natAbs = (2 * s.toInt).natAbs * w.toInt.natAbs := Int.natAbs_mul _ _
    _ ≤ 2 ^ 16 * 2 ^ 31 := Nat.mul_le_mul hs hw.le
    _ < 2 ^ 48 := by decide

/-- A positive sample falls by at least 1, as the window entry is below 2^31. -/
theorem gain_le_pred {s : Sample} {w : Word} (h : 0 ≤ w.toInt) (hs : 0 < s.toInt) : (gain s w).toInt ≤ s.toInt - 1 := by
  have : s.toInt * w.toInt < s.toInt * 2 ^ 31 := mul_lt_mul_of_pos_left (word_toInt_lt w) hs
  rw [gain_toInt s h, mul_assoc]
  omega

/-- A negative sample never reaches 0 unless the window entry is 0. -/
theorem gain_le_neg_one {s : Sample} {w : Word} (hs : s.toInt < 0) (hw : 1 ≤ w.toInt) : (gain s w).toInt ≤ -1 := by
  have : s.toInt * w.toInt < 0 := mul_neg_of_neg_of_pos hs (by omega)
  rw [gain_toInt s (by omega), mul_assoc]
  omega

theorem gain_mono {s : Sample} {v w : Word} (h : 0 ≤ v.toInt) (hvw : v.toInt ≤ w.toInt) (hs : 0 ≤ s.toInt) :
    (gain s v).toInt ≤ (gain s w).toInt := by
  rw [gain_toInt s h, gain_toInt s (h.trans hvw)]
  exact Int.ediv_le_ediv (by decide) (mul_le_mul_of_nonneg_left hvw (by omega))

theorem gain_anti {s : Sample} {v w : Word} (h : 0 ≤ v.toInt) (hvw : v.toInt ≤ w.toInt) (hs : s.toInt < 0) :
    (gain s w).toInt ≤ (gain s v).toInt := by
  rw [gain_toInt s h, gain_toInt s (h.trans hvw)]
  exact Int.ediv_le_ediv (by decide) (mul_le_mul_of_nonpos_left hvw (by omega))

/-- Settles O24: each clause by the lemma about it, and the five worked values evaluated. -/
theorem gainRange : Obligations.GainRange := by
  refine ⟨fun s w h => ?_, fun s v w h hvw => ⟨gain_mono h hvw, gain_anti h hvw⟩, by decide⟩
  obtain ⟨hlow, hhigh⟩ := floor_between (s := s.toInt) h (word_toInt_lt w).le
  rw [← gain_toInt s h] at hlow hhigh
  exact ⟨hlow, hhigh, by simp [gain], gain_le_pred h, gain_le_neg_one⟩

/-! ### ENV (R102) -/

theorem env_rampUp {p : Params} {idx : Nat} (s : Sample) (h : idx < p.n) :
    env p true idx s = (gain s (winRead p idx), idx + 1) := by simp [env, h]

theorem env_unity {p : Params} {idx : Nat} (s : Sample) (h : p.n ≤ idx) : env p true idx s = (s, p.n) := by
  simp [env, Nat.not_lt.mpr h]

theorem env_rampDown (p : Params) {idx : Nat} (s : Sample) (h : 0 < idx) :
    env p false idx s = (gain s (winRead p (idx - 1)), idx - 1) := by simp [env, h]

theorem env_silence (p : Params) (s : Sample) : env p false 0 s = (0, 0) := rfl

theorem winRead_of_getElem? {p : Params} {k : Nat} {w : Word} (h : p.win[k]? = some w) : winRead p k = w := by
  simp [winRead, h]

/-- Settles O25: the four equations of ENV, the window entry read where it stands. -/
theorem envelopeStep : Obligations.EnvelopeStep := by
  refine fun b s w idx => ⟨fun h hw => ?_, fun h => ?_, fun h _ hw => ?_, fun h => ?_⟩
  · rw [env_rampUp s h, winRead_of_getElem? hw]
  · exact env_unity s h.ge
  · rw [env_rampDown _ s h, winRead_of_getElem? hw]
  · rw [h, env_silence]

/-! ### The index along a ramp -/

/-- The index before sample i of a ramp that starts at idx: it moves by one for each sample until it meets N or 0. (An index above N, which
no run reaches, goes to N at once.) -/
def rampIndex (p : Params) (k : Bool) (idx i : Nat) : Nat :=
  if k then (if i = 0 then idx else min (idx + i) p.n) else idx - i

theorem rampIndex_zero (p : Params) (k : Bool) (idx : Nat) : rampIndex p k idx 0 = idx := by
  cases k <;> rfl

/-- A ramp of i + j samples is one of i samples, then one of j. -/
theorem rampIndex_rampIndex (p : Params) (k : Bool) (idx i j : Nat) :
    rampIndex p k (rampIndex p k idx i) j = rampIndex p k idx (i + j) := by
  cases k with
  | false => exact Nat.sub_sub ..
  | true =>
    simp only [rampIndex, if_true]
    split_ifs <;> omega

theorem rampIndex_le (p : Params) (k : Bool) (idx i : Nat) : rampIndex p k idx i ≤ max idx p.n := by
  unfold rampIndex
  split_ifs <;> omega

theorem rampIndex_pos (p : Params) (k : Bool) (idx : Nat) {i : Nat} (h : 0 < i) :
    rampIndex p k idx i = if k then min (idx + i) p.n else idx - i := by
  simp [rampIndex, h.ne']

theorem env_snd (p : Params) (k : Bool) (idx : Nat) (s : Sample) : (env p k idx s).2 = rampIndex p k idx 1 := by
  rw [env_index, rampIndex_pos p k idx one_pos]
  split_ifs <;> omega

theorem envBlock_snd (p : Params) (k : Bool) (idx : Nat) (ss : List Sample) :
    (envBlock p k idx ss).2 = rampIndex p k idx ss.length := by
  induction ss generalizing idx with
  | nil => exact (rampIndex_zero p k idx).symm
  | cons s ss ih => rw [envBlock_cons, ih, env_snd, rampIndex_rampIndex, List.length_cons, Nat.add_comm]

theorem envBlock_getElem? (p : Params) (k : Bool) (idx : Nat) (ss : List Sample) (i : Nat) :
    (envBlock p k idx ss).1[i]? = ss[i]?.map fun s => (env p k (rampIndex p k idx i) s).1 := by
  induction ss generalizing idx i with
  | nil => rfl
  | cons s ss ih =>
    rw [envBlock_cons]
    cases i with
    | zero => simp [rampIndex_zero]
    | succ i => simp [ih, env_snd, rampIndex_rampIndex, Nat.add_comm 1 i]

/-- The index before sample i of a TX block that starts here. -/
def State.indexAt (s : State) (i : Nat) : Nat := rampIndex s.build.toParams s.key s.idx.toNat i

theorem State.toneOut_snd (s : State) : s.toneOut.2 = s.indexAt s.build.blockLen := by
  rw [State.toneOut, envBlock_snd, s.samples_length]; rfl

/-- The 12 bits of IDX hold the index after a block. -/
theorem State.toneOut_index (s : State) : (BitVec.ofNat 12 s.toneOut.2).toNat = s.indexAt s.build.blockLen := by
  have hle := rampIndex_le s.build.toParams s.key s.idx.toNat s.build.blockLen
  have hn := s.build.n_le
  have hidx := s.idx.isLt
  rw [s.toneOut_snd, BitVec.toNat_ofNat]
  exact Nat.mod_eq_of_lt (hle.trans_lt (by omega))

theorem State.toneOut_getD (s : State) {i : Nat} (h : i < s.build.blockLen) :
    s.toneOut.1.getD i 0 = (env s.build.toParams s.key (s.indexAt i) (s.sample .tone i)).1 := by
  rw [State.toneOut, List.getD_eq_getElem?_getD, envBlock_getElem?, s.samples_getElem? .tone h]; rfl

/-! ### The coefficient along a ramp (R105) -/

/-- The gain ENV applies at an index, 2^31 for unity. -/
def rampCoeff (p : Params) (k : Bool) (idx : Nat) : Int :=
  if k then (if idx < p.n then (winRead p idx).toInt else 2 ^ 31)
  else (if 0 < idx then (winRead p (idx - 1)).toInt else 0)

/-- The coefficient of sample i is that of the index before it. -/
theorem State.coeff_eq (s : State) (i : Nat) : s.coeff i = rampCoeff s.build.toParams s.key (s.indexAt i) := by
  unfold State.coeff rampCoeff State.indexAt
  cases s.key with
  | false => simp only [rampIndex, Bool.false_eq_true, if_false, Nat.sub_pos_iff_lt, Nat.sub_right_comm]
  | true =>
    simp only [if_true]
    by_cases h : s.idx.toNat + i < s.build.n
    · have hix : rampIndex s.build.toParams true s.idx.toNat i = s.idx.toNat + i := by
        simp only [rampIndex, if_true]; split_ifs <;> omega
      rw [hix]
    · have hix : s.build.n ≤ rampIndex s.build.toParams true s.idx.toNat i := by
        simp only [rampIndex, if_true]; split_ifs <;> omega
      rw [if_neg h, if_neg hix.not_gt]

section
variable (b : Build)

theorem winRead_nonneg (k : Nat) : 0 ≤ (winRead b.toParams k).toInt := by
  by_cases h : k < b.n
  · exact b.win_nonneg _ (List.mem_of_getElem? (getElem?_eq_winRead h))
  · simp [winRead, List.getElem?_eq_none (Nat.not_lt.mp h : b.win.length ≤ k)]

theorem winRead_mono {i j : Nat} (h : i ≤ j) (hj : j < b.n) :
    (winRead b.toParams i).toInt ≤ (winRead b.toParams j).toInt :=
  rising_le b.rising_win h (getElem?_eq_winRead (h.trans_lt hj)) (getElem?_eq_winRead hj)

theorem winRead_zero : winRead b.toParams 0 = 0 :=
  winRead_of_getElem? (List.head?_eq_getElem? ▸ b.win_head)

/-- ENV floors the product of the sample and the coefficient, on all its four paths. -/
theorem env_toInt (k : Bool) (idx : Nat) (s : Sample) :
    (env b.toParams k idx s).1.toInt = 2 * s.toInt * rampCoeff b.toParams k idx / 2 ^ 32 := by
  unfold rampCoeff
  cases k with
  | true =>
    by_cases h : idx < b.n
    · rw [env_rampUp s h, if_pos rfl, if_pos h, gain_toInt s (winRead_nonneg b _)]
    · rw [env_unity s (Nat.not_lt.mp h), if_pos rfl, if_neg h]
      exact (Int.ediv_eq_of_eq_mul_left (by decide) (by ring)).symm
  | false =>
    rcases Nat.eq_zero_or_pos idx with rfl | h
    · simp [env_silence]
    · rw [env_rampDown _ s h, if_neg Bool.false_ne_true, if_pos h, gain_toInt s (winRead_nonneg b _)]

theorem rampCoeff_bounds (k : Bool) (idx : Nat) : 0 ≤ rampCoeff b.toParams k idx ∧ rampCoeff b.toParams k idx ≤ 2 ^ 31 := by
  have hread (j : Nat) : 0 ≤ (winRead b.toParams j).toInt ∧ (winRead b.toParams j).toInt ≤ 2 ^ 31 :=
    ⟨winRead_nonneg b j, (word_toInt_lt _).le⟩
  unfold rampCoeff
  split_ifs
  · exact hread _
  · decide
  · exact hread _
  · decide

theorem rampCoeff_unity {idx : Nat} (h : b.n ≤ idx) : rampCoeff b.toParams true idx = 2 ^ 31 := by
  simp [rampCoeff, h.not_gt]

/-- The coefficient of a ramp-down is 0 at window entry 0, and when no entry is left. -/
theorem rampCoeff_silence {idx : Nat} (h : idx ≤ 1) : rampCoeff b.toParams false idx = 0 := by
  interval_cases idx
  · rfl
  · simp [rampCoeff, winRead_zero]

theorem rampCoeff_start : rampCoeff b.toParams true 0 = 0 := by
  simp [rampCoeff, winRead_zero, Nat.zero_lt_of_lt b.one_le_n]

/-- In either direction a higher index has no lower coefficient, for indices of the table. -/
theorem rampCoeff_mono (k : Bool) {i j : Nat} (h : i ≤ j) (hj : j ≤ b.n) :
    rampCoeff b.toParams k i ≤ rampCoeff b.toParams k j := by
  cases k with
  | true =>
    rcases hj.lt_or_eq with hj | rfl
    · simpa [rampCoeff, hj, h.trans_lt hj] using winRead_mono b h hj
    · exact (rampCoeff_bounds b true i).2.trans (rampCoeff_unity b le_rfl).ge
  | false =>
    rcases Nat.eq_zero_or_pos i with rfl | hi
    · exact (rampCoeff_bounds b false j).1
    · simpa [rampCoeff, hi, hi.trans_le h] using winRead_mono b (Nat.sub_le_sub_right h 1) (by omega)

end

/-- With key down a later sample has no lower index, and the index reaches N. -/
theorem State.indexAt_of_key {s : State} (hkey : s.key = true) (h : s.idx.toNat ≤ s.build.n) (i : Nat) :
    s.indexAt i = min (s.idx.toNat + i) s.build.n := by
  simp only [State.indexAt, rampIndex, hkey, if_true]
  split_ifs <;> omega

theorem State.indexAt_of_not_key {s : State} (hkey : s.key = false) (i : Nat) : s.indexAt i = s.idx.toNat - i := by
  simp [State.indexAt, rampIndex, hkey]

/-- Settles O29: the index moves one way along the block, and the coefficient follows the index. -/
theorem envelopeIsMonotone : Obligations.EnvelopeIsMonotone := by
  intro s i j hidx hij
  simp only [State.coeff_eq]
  refine ⟨fun hkey => ?_, fun hkey => ?_, fun hkey h0 => ?_⟩
  · rw [s.indexAt_of_key hkey hidx i, s.indexAt_of_key hkey hidx j, hkey]
    exact ⟨rampCoeff_mono _ _ (by omega) (by omega), (rampCoeff_bounds _ _ _).2, fun h => rampCoeff_unity _ (by omega)⟩
  · rw [s.indexAt_of_not_key hkey i, s.indexAt_of_not_key hkey j, hkey]
    exact ⟨rampCoeff_mono _ _ (by omega) (by omega), (rampCoeff_bounds _ _ _).1, fun h => rampCoeff_silence _ (by omega)⟩
  · rw [State.indexAt, rampIndex_zero, h0, hkey]
    exact rampCoeff_start _

/-! ### One MIX_CYCLE (R103, R104) -/

/-- When exactly the marked blocks are presented, they are what is released, in R103's order. -/
theorem releases_of_marksMatch {t l r : Bool} {b : Blocks} (h : (Instr.mixCycle t l r).marksMatch b = true) :
    releases t l r b = (if t then [.tone] else []) ++ (if l then [.inl] else []) ++ (if r then [.inr] else []) := by
  have hmarks : ∀ n ∈ BlockName.all, (Instr.mixCycle t l r).marks n = b.has n := by
    simpa [Instr.marksMatch] using h
  have : releases t l r b = BlockName.all.filter (Instr.mixCycle t l r).marks :=
    List.filter_congr fun n hn => by rw [← hmarks n hn, Bool.or_self]
  rw [this]
  cases t <;> cases l <;> cases r <;> rfl

/-- Settles O26: the equation of each path; the indices of the tone path are those along the ramp. -/
theorem mixCycleEffect : Obligations.MixCycleEffect := by
  intro t l r s
  refine ⟨releases t l r s.lane, releases_of_marksMatch, ?_, ?_, ?_, fun n xs i x => State.sample_of_get⟩
  · rintro rfl
    exact exec_mixCycle_skip l r s
  · rintro rfl htx
    refine ⟨s.toneOut.1, s.indexAt, s.toneOut_length, rampIndex_zero _ _ _, fun i hi => ?_, ?_⟩
    · rw [s.toneOut_getD hi]
      exact Prod.ext rfl ((env_snd ..).trans (rampIndex_rampIndex ..))
    · rw [exec_mixCycle_tone l r s (s.isTx_iff.mpr htx), s.nextMc_eq, s.toneOut_snd]
      rfl
  · rintro rfl hkey h0
    rw [exec_mixCycle_pass l r s (s.isTx_eq_false.mpr ⟨hkey, h0⟩), s.nextMc_eq, s.passOut_eq, s.passOut_eq, s.gated_eq]
    rfl

/-- Every executed cycle reloads or counts MC, moves IDX along the ramp by L samples, and leaves the build and the flags. (On the RX path
IDX is 0 and stays so.) -/
structure State.Executed (s t : State) : Prop where
  build_eq : t.build = s.build
  key_eq : t.key = s.key
  mute_eq : t.mute = s.mute
  mc_eq : t.mc = s.nextMc
  idx_eq : t.idx.toNat = s.indexAt s.build.blockLen

theorem exec_mixCycle_executed {l r : Bool} {s t : State} (h : exec (.mixCycle true l r) s = .next t) : s.Executed t := by
  cases htx : s.isTx with
  | true =>
    rw [exec_mixCycle_tone l r s htx] at h
    cases h
    exact ⟨rfl, rfl, rfl, rfl, s.toneOut_index⟩
  | false =>
    obtain ⟨hkey, h0⟩ := s.isTx_eq_false.mp htx
    rw [exec_mixCycle_pass l r s htx] at h
    cases h
    refine ⟨rfl, rfl, rfl, rfl, ?_⟩
    rw [s.indexAt_of_not_key hkey, h0, Nat.zero_sub]
    rfl

theorem State.indexAt_blockLen (s : State) :
    s.indexAt s.build.blockLen =
      if s.key then min (s.idx.toNat + s.build.blockLen) s.build.n else s.idx.toNat - s.build.blockLen :=
  rampIndex_pos _ _ _ s.build.one_le_blockLen

/-- Settles O27: ENV scales each sample by the coefficient of the index before it. -/
theorem toneBlockClosedForm : Obligations.ToneBlockClosedForm := by
  intro l r s _ htx
  have hexec := exec_mixCycle_tone l r s (s.isTx_iff.mpr htx)
  refine ⟨_, s.toneOut.1, _, hexec, rfl, s.toneOut_length, fun i hi => ?_, ?_⟩
  · rw [s.toneOut_getD hi, env_toInt, s.coeff_eq]
  · rw [(exec_mixCycle_executed hexec).idx_eq, s.indexAt_blockLen]

/-- Settles O28: a cycle writes an IDX in range, and each equation of ENV names an entry of the table. -/
theorem windowIndexStaysInRange : Obligations.WindowIndexStaysInRange := by
  refine ⟨fun t l r s u hidx h => ?_, fun l r s h => ⟨_, exec_mixCycle_pass l r s h, rfl⟩, fun b idx s hidx => ⟨?_, ?_, ?_, ?_⟩⟩
  · obtain ⟨idx, mc, reply, rfl, hle, -⟩ := exec_mixCycle_cases h
    exact hle hidx
  · exact fun h => ⟨_, getElem?_eq_winRead h, env_rampUp s h⟩
  · rintro rfl
    exact env_unity s le_rfl
  · exact fun h => ⟨_, getElem?_eq_winRead (by omega), env_rampDown _ s h⟩
  · rintro rfl
    exact env_silence _ s

/-- Settles O34: from sample IDX on the index is 0, where ENV gives silence. -/
theorem rampDownEndsInSilence : Obligations.RampDownEndsInSilence := by
  intro l r s hkey hpos hle
  have hexec := exec_mixCycle_tone l r s (s.isTx_iff.mpr (.inr hpos))
  have hx := exec_mixCycle_executed hexec
  have h0 := hx.idx_eq
  rw [s.indexAt_of_not_key hkey, Nat.sub_eq_zero_of_le hle] at h0
  refine ⟨_, s.toneOut.1, _, hexec, rfl, fun i hi => ?_, BitVec.eq_of_toNat_eq h0, (State.isTx_eq_false _).mpr ⟨hkey, h0⟩⟩
  by_cases hL : i < s.build.blockLen
  · rw [s.toneOut_getD hL, s.indexAt_of_not_key hkey, Nat.sub_eq_zero_of_le hi, hkey, env_silence]
  · exact List.getD_eq_default _ _ (by rw [s.toneOut_length]; omega)

/-- The first coefficient of a cycle is that of the index the cycle before left. -/
theorem State.coeff_zero (s : State) : s.coeff 0 = rampCoeff s.build.toParams s.key s.idx.toNat := by
  rw [s.coeff_eq, State.indexAt, rampIndex_zero]

/-- Settles O30: the entry a ramp used last stands beside the index it left, on the side the other direction reads. -/
theorem reversalIsContinuous : Obligations.ReversalIsContinuous := by
  intro l r s t u hidx h hbuild hu hpos
  have hx := exec_mixCycle_executed h
  have hL := s.build.one_le_blockLen
  have hix := hx.idx_eq.trans s.indexAt_blockLen
  rw [u.coeff_zero, hbuild, hx.build_eq, hu]
  refine ⟨fun hkey hkeyu hlt => ?_, fun hkey hkeyu => ?_⟩
  · rw [hkey, if_neg Bool.false_ne_true] at hix
    have hfirst : rampCoeff s.build.toParams u.key t.idx.toNat = (winRead s.build.toParams t.idx.toNat).toInt := by
      simp [rampCoeff, hkeyu, hlt]
    refine ⟨hfirst, hfirst ▸ ?_⟩
    rw [State.coeff, hkey, if_neg Bool.false_ne_true, if_pos (by omega)]
    congr 2
    omega
  · rw [hkey, if_pos rfl] at hix
    have hfirst : rampCoeff s.build.toParams u.key t.idx.toNat = (winRead s.build.toParams (t.idx.toNat - 1)).toInt := by
      simp [rampCoeff, hkeyu, hpos]
    refine ⟨hfirst, hfirst ▸ ?_⟩
    rw [State.coeff, hkey, if_pos rfl]
    by_cases hin : s.idx.toNat + (s.build.blockLen - 1) < s.build.n
    · left
      rw [if_pos hin]
      congr 2
      omega
    · exact .inr ⟨by omega, if_neg hin⟩

/-! ### Sequences of cycles (R107, R108) -/

theorem Cycle.run_of_tone {c : Cycle} (h : c.t = true) (s : State) : (c.enter s).Executed (c.run s) :=
  exec_mixCycle_executed (h ▸ exec_cycle c s)

theorem Cycle.run_of_skip {c : Cycle} (h : c.t = false) (s : State) : (c.enter s).SameRegs (c.run s) := by
  have hexec := exec_cycle c s
  rw [h, exec_mixCycle_skip, Host.Outcome.next.injEq] at hexec
  exact hexec ▸ State.finishAudio_sameRegs ..

theorem executed_cons (c : Cycle) (cs : List Cycle) : executed (c :: cs) = (if c.t then 1 else 0) + executed cs := by
  cases h : c.t <;> simp [executed, h, Nat.add_comm]

theorem Cycle.run_build (c : Cycle) (s : State) : (c.run s).build = s.build := by
  cases h : c.t with
  | true => exact (c.run_of_tone h s).build_eq
  | false => exact (c.run_of_skip h s).1

theorem Cycle.run_mute (c : Cycle) (s : State) : (c.run s).mute = s.mute := by
  cases h : c.t with
  | true => exact (c.run_of_tone h s).mute_eq
  | false =>
    obtain ⟨-, -, hmute, -⟩ := c.run_of_skip h s
    exact hmute

/-- With MUTE clear MC counts executed cycles, and only those. -/
theorem Cycle.run_mc (c : Cycle) {s : State} (hmute : s.mute = false) :
    (c.run s).mc.toNat = s.mc.toNat - if c.t then 1 else 0 := by
  cases h : c.t with
  | true =>
    rw [(c.run_of_tone h s).mc_eq, State.nextMc_toNat]
    exact if_neg (ne_true_of_eq_false hmute)
  | false =>
    obtain ⟨-, -, -, -, hmc, -⟩ := c.run_of_skip h s
    rw [hmc]; rfl

theorem Cycle.run_idx (c : Cycle) (s : State) :
    (c.run s).idx.toNat = rampIndex s.build.toParams c.key s.idx.toNat ((if c.t then 1 else 0) * s.build.blockLen) := by
  cases h : c.t with
  | true =>
    rw [(c.run_of_tone h s).idx_eq, if_pos rfl, Nat.one_mul]
    rfl
  | false =>
    obtain ⟨-, -, -, hidx, -⟩ := c.run_of_skip h s
    rw [hidx, if_neg Bool.false_ne_true, Nat.zero_mul, rampIndex_zero]
    rfl

theorem Cycle.enter_gated (c : Cycle) {s : State} (hmute : s.mute = false) : (c.enter s).gated = decide (0 < s.mc.toNat) := by
  rw [State.gated_eq]
  show (s.mute || decide (0 < s.mc.toNat)) = _
  rw [hmute, Bool.false_or]

theorem gatedCycles_cons (s : State) (c : Cycle) (cs : List Cycle) :
    gatedCycles s (c :: cs) = (if c.t then [(c.enter s).gated] else []) ++ gatedCycles (c.run s) cs := by
  rw [gatedCycles]
  split <;> rfl

/-- MC at the start of a sequence is the number of executed cycles it silences. -/
theorem gatedCycles_eq {s : State} (hmute : s.mute = false) (cs : List Cycle) :
    gatedCycles s cs =
      List.replicate (min s.mc.toNat (executed cs)) true ++ List.replicate (executed cs - s.mc.toNat) false := by
  induction cs generalizing s with
  | nil => simp [gatedCycles, executed]
  | cons c cs ih =>
    rw [gatedCycles_cons, ih ((c.run_mute s).trans hmute), c.run_mc hmute, executed_cons, c.enter_gated hmute]
    cases c.t with
    | false => simp
    | true =>
      cases s.mc.toNat <;> simp [Nat.add_comm 1, List.replicate_succ]

theorem runCycles_mc {s : State} (hmute : s.mute = false) (cs : List Cycle) :
    (runCycles s cs).mc.toNat = s.mc.toNat - executed cs := by
  induction cs generalizing s with
  | nil => rfl
  | cons c cs ih => rw [runCycles, ih ((c.run_mute s).trans hmute), c.run_mc hmute, executed_cons, Nat.sub_sub]

theorem State.passOut_getD (s : State) (n : BlockName) {i : Nat} (h : i < s.build.blockLen) :
    (s.passOut true n).getD i 0 = if s.gated then 0 else s.sample n i := by
  rw [s.passOut_eq, List.getD_eq_getElem?_getD]
  cases s.gated with
  | true => simp [h]
  | false => simp [s.samples_getElem? n h]

/-- Settles O31: a muted cycle leaves MC = M, the number of executed cycles silenced after it. -/
theorem trailingMuteIsExact : Obligations.TrailingMuteIsExact := by
  refine ⟨fun l r s hmute => ?_, fun s hkey h0 => ?_⟩
  · obtain ⟨t, ht⟩ := exec_next (.mixCycle true l r) s
    have hx := exec_mixCycle_executed ht
    have hmc : t.mc.toNat = s.build.trailBlocks := by
      rw [hx.mc_eq, s.nextMc_toNat, if_pos hmute]
    rw [← hmc]
    exact ⟨t, ht, fun cs => ⟨gatedCycles_eq rfl cs, runCycles_mc rfl cs⟩⟩
  · exact ⟨_, _, _, _, exec_mixCycle_pass true true s (s.isTx_eq_false.mpr ⟨hkey, h0⟩), rfl,
      fun i hi => ⟨s.passOut_getD .inl hi, s.passOut_getD .inr hi⟩⟩

theorem runCycles_build (s : State) (cs : List Cycle) : (runCycles s cs).build = s.build := by
  induction cs generalizing s with
  | nil => rfl
  | cons c cs ih => rw [runCycles, ih, c.run_build]

/-- With KEY held, IDX moves along one ramp, L samples for each executed cycle. -/
theorem runCycles_idx {k : Bool} (s : State) {cs : List Cycle} (h : ∀ c ∈ cs, c.key = k) :
    (runCycles s cs).idx.toNat = rampIndex s.build.toParams k s.idx.toNat (executed cs * s.build.blockLen) := by
  induction cs generalizing s with
  | nil => exact ((congrArg _ (Nat.zero_mul _)).trans (rampIndex_zero ..)).symm
  | cons c cs ih =>
    obtain ⟨hc, hcs⟩ := List.forall_mem_cons.mp h
    rw [runCycles, ih _ hcs, c.run_build, c.run_idx, hc, rampIndex_rampIndex, executed_cons, Nat.add_mul]

/-- The coefficients go on from one cycle to the next where they stopped. -/
theorem coeff_runCycles {k : Bool} (s : State) {cs : List Cycle} (h : ∀ c ∈ cs, c.key = k) (i : Nat) :
    { runCycles s cs with key := k : State }.coeff i = { s with key := k : State }.coeff (executed cs * s.build.blockLen + i) := by
  simp only [State.coeff_eq, State.indexAt, runCycles_build, runCycles_idx s h, rampIndex_rampIndex]

/-- Settles O32: all the cycles together are one ramp, of as many samples as the executed cycles have. -/
theorem rampTakesWindowLengthSamples : Obligations.RampTakesWindowLengthSamples := by
  intro s cs m
  refine ⟨fun h0 hkeys => ⟨?_, fun i => ?_⟩, fun hN hkeys => ?_⟩
  · have hmin : rampIndex s.build.toParams true 0 m = min m s.build.n := by
      simp only [rampIndex, if_true]
      split_ifs <;> omega
    rw [runCycles_idx s hkeys, h0, hmin]
  · rw [coeff_runCycles s hkeys, State.coeff]
    simp only [if_true, h0, Nat.zero_add]
    rfl
  · have hidx : (runCycles s cs).idx.toNat = s.build.n - m := by
      rw [runCycles_idx s hkeys, hN]
      rfl
    refine ⟨hidx, fun i => ?_, fun hm => (State.isTx_eq_false _).mpr ⟨rfl, hidx.trans (Nat.sub_eq_zero_of_le hm)⟩⟩
    rw [coeff_runCycles s hkeys, State.coeff]
    simp only [Bool.false_eq_true, if_false, hN]
    rfl

/-! ### The flag writes (R109, R110) -/

theorem exec_setKey (v : Bool) (s : State) : exec (.setKey v) s = .next ({ s with key := v }.finishControl .done) := rfl

theorem exec_setMute (v : Bool) (s : State) : exec (.setMute v) s = .next ({ s with mute := v }.finishControl .done) := rfl

/-- Settles O35: SET_KEY writes the flag and ends on the control port. -/
theorem setKeyEffect : Obligations.SetKeyEffect := exec_setKey

/-- Settles O36: SET_MUTE writes the flag and ends on the control port; MC is not written. -/
theorem setMuteEffect : Obligations.SetMuteEffect := exec_setMute

end Sys2Proof.Machine
end

section
/-! SUPPORT. The statements about the Input Denoiser (41_denoiser.md): the filter and how it settles, the quantizer, what an update of an
enabled channel leaves in F, LS and the response, and the reports along a sequence of updates. -/

namespace Sys2Proof.Machine

/-! ### The filter (R141, R146, R147) -/

/-- (EW − 1) × RAW_MAX and RAW_MAX once more are FMAX (R146). -/
theorem pred_ew_mul_rawMax_add (b : Build) : (b.ew - 1) * b.rawMax + b.rawMax = b.fmax := by
  have hew := b.two_le_ew
  rw [← Nat.succ_mul, Nat.succ_eq_add_one, Nat.sub_add_cancel (by omega)]
  rfl

/-- Settles O41: the bound of one update, with FMAX written out. -/
theorem filterBound : Obligations.FilterBound := by
  intro b f raw hf
  have hfmax := b.fmax_le
  exact ⟨pred_ew_mul_rawMax_add b ▸ ema_le_fmax b raw hf, pred_ew_mul_rawMax_add b, by omega⟩

theorem ceilEw_le_iff {p : Params} (hew : 0 < p.ew) (f k : Nat) : ceilEw p f ≤ k ↔ f ≤ p.ew * k := by
  rw [ceilEw, Nat.div_le_iff_le_mul_add_pred hew]
  omega

theorem ceilEw_succ {p : Params} (hew : 0 < p.ew) (x : Nat) : ceilEw p (x + 1) = x / p.ew + 1 := by
  rw [ceilEw, show x + 1 + (p.ew - 1) = x + p.ew by omega, Nat.add_div_right _ hew]

/-- One update takes away ceil(f / EW) and adds the clamped raw value (R147). -/
theorem ema_add_ceilEw {p : Params} (hew : 0 < p.ew) (f : Nat) (raw : BitVec 16) :
    ema p f raw + ceilEw p f = f + clampRaw p raw := by
  have kept : (p.ew - 1) * f / p.ew + ceilEw p f = f := by
    cases f with
    | zero => simp [Nat.le_zero.mp ((ceilEw_le_iff hew 0 0).mpr le_rfl)]
    | succ x =>
      have hx : x < p.ew * (x + 1) := Nat.lt_of_lt_of_le x.lt_succ_self (Nat.le_mul_of_pos_left _ hew)
      have hdiv := Nat.div_le_self x p.ew
      rw [Nat.sub_one_mul, Nat.mul_sub_div _ _ _ hx, ceilEw_succ hew]
      omega
  rw [ema]
  omega

theorem ema_mono (p : Params) {f g : Nat} (h : f ≤ g) (raw : BitVec 16) : ema p f raw ≤ ema p g raw :=
  Nat.add_le_add_right (Nat.div_le_div_right (Nat.mul_le_mul_left _ h)) _

theorem ema_of_ceilEw_eq {p : Params} (hew : 0 < p.ew) {f : Nat} {raw : BitVec 16} (h : ceilEw p f = clampRaw p raw) :
    ema p f raw = f := by
  have := ema_add_ceilEw hew f raw
  omega

theorem emaIter_eq_iterate (p : Params) (raw : BitVec 16) (n f : Nat) : emaIter p raw n f = (ema p · raw)^[n] f := by
  induction n generalizing f with
  | zero => rfl
  | succ n ih => exact ih _

theorem emaIter_add (p : Params) (raw : BitVec 16) (n k f : Nat) :
    emaIter p raw (n + k) f = emaIter p raw k (emaIter p raw n f) := by
  simp only [emaIter_eq_iterate, Nat.add_comm n k, Function.iterate_add_apply]

/-- A steady value is kept by any further number of updates. -/
theorem emaIter_of_ceilEw_eq {p : Params} (hew : 0 < p.ew) {f : Nat} {raw : BitVec 16} (h : ceilEw p f = clampRaw p raw) (k : Nat) :
    emaIter p raw k f = f := by
  rw [emaIter_eq_iterate]
  exact Function.iterate_fixed (f := (ema p · raw)) (ema_of_ceilEw_eq hew h) k

/-- The steady values are the EW values up to EW × rc, or 0 alone for rc = 0 (R147). -/
theorem ceilEw_eq_iff {p : Params} (hew : 0 < p.ew) (f rc : Nat) :
    ceilEw p f = rc ↔ f ≤ p.ew * rc ∧ (1 ≤ rc → p.ew * (rc - 1) + 1 ≤ f) := by
  have hle := ceilEw_le_iff hew f rc
  have hlt := ceilEw_le_iff hew f (rc - 1)
  omega

/-- Every update that does not start at a steady value brings the filter nearer to EW × rc, the highest of them, which it never passes. -/
theorem dist_ema_lt {p : Params} (hew : 0 < p.ew) {f : Nat} {raw : BitVec 16} (h : ceilEw p f ≠ clampRaw p raw) :
    Nat.dist (ema p f raw) (p.ew * clampRaw p raw) < Nat.dist f (p.ew * clampRaw p raw) := by
  have htop : ema p (p.ew * clampRaw p raw) raw = p.ew * clampRaw p raw := by
    refine ema_of_ceilEw_eq hew ((ceilEw_eq_iff hew _ _).mpr ⟨le_rfl, fun hrc => ?_⟩)
    have := Nat.mul_lt_mul_of_pos_left (Nat.sub_one_lt_of_lt hrc) hew
    omega
  have hstep := ema_add_ceilEw hew f raw
  rcases Nat.lt_or_gt_of_ne h with hbelow | habove
  · have hf := (ceilEw_le_iff hew f _).mp hbelow.le
    have hnext := ema_mono p hf raw
    simp only [Nat.dist]
    omega
  · have hf := (not_le.mp (mt (ceilEw_le_iff hew f _).mpr habove.not_ge)).le
    have hnext := ema_mono p hf raw
    simp only [Nat.dist]
    omega

/-- Under a constant raw value a steady value is reached (R147). -/
theorem exists_ceilEw_emaIter_eq {p : Params} (hew : 0 < p.ew) (raw : BitVec 16) (f : Nat) :
    ∃ n, ceilEw p (emaIter p raw n f) = clampRaw p raw := by
  by_cases h : ceilEw p f = clampRaw p raw
  · exact ⟨0, h⟩
  · obtain ⟨n, hn⟩ := exists_ceilEw_emaIter_eq hew raw (ema p f raw)
    exact ⟨n + 1, hn⟩
termination_by Nat.dist f (p.ew * clampRaw p raw)
decreasing_by exact dist_ema_lt hew h

/-- The default build rises from 0 under raw 1023 to 16352 in 116 updates. -/
theorem emaIter_standard_116 : emaIter Params.standard 1023 116 0 = 16352 := by decide +kernel

/-- Settles O42: the difference of one update gives the direction; the filter nears the top steady value until it stands at one. -/
theorem filterSettles : Obligations.FilterSettles := by
  refine ⟨fun b f raw => ?_, emaIter_standard_116, fun k hk => ?_⟩
  · have hew : 0 < b.ew := Nat.lt_of_lt_of_le Nat.zero_lt_two b.two_le_ew
    have hstep : ema b.toParams f raw + ceilEw b.toParams f = f + min raw.toNat b.rawMax := ema_add_ceilEw hew f raw
    have hsteady := ceilEw_eq_iff hew f (min raw.toNat b.rawMax)
    have hreached := exists_ceilEw_emaIter_eq hew raw f
    refine ⟨by omega, by omega, by omega, fun hrc => ?_, fun hrc => ?_,
      Nat.find hreached, Nat.find_spec hreached, fun k hk => ?_, fun k hk => Nat.find_min hreached hk⟩
    · rw [hsteady]; tauto
    · rw [hsteady, hrc]; simp
    · obtain ⟨j, rfl⟩ := Nat.exists_eq_add_of_le hk
      rw [emaIter_add]
      exact emaIter_of_ceilEw_eq hew (Nat.find_spec hreached) j
  · obtain ⟨j, rfl⟩ := Nat.exists_eq_add_of_le hk
    have h117 : emaIter Params.standard 1023 117 0 = 16353 := by
      rw [emaIter_add Params.standard 1023 116 1, emaIter_standard_116]; decide
    rw [emaIter_add, h117]
    exact emaIter_of_ceilEw_eq (by decide) (by decide) j

/-! ### The quantizer (R140, R142) -/

theorem quantize_mono (x : Channel) {f g : Nat} (h : f ≤ g) : quantize x f ≤ quantize x g :=
  min_le_min_right _ (Nat.div_le_div_right h)

/-- Up to FMAX the minimum never acts (R142). -/
theorem quantize_eq_div {b : Build} {x : Channel} (hx : x ∈ b.chans) {f : Nat} (hf : f ≤ b.fmax) : quantize x f = f / x.b := by
  obtain ⟨-, -, hFmax, -⟩ := b.channel_laws hx
  have hlt : f / x.b < x.c := Nat.div_lt_of_lt_mul (hf.trans_lt hFmax)
  exact min_eq_left (by omega)

/-- Settles O43: the quotient of a value up to FMAX is below C already. -/
theorem quantizerSteps : Obligations.QuantizerSteps :=
  ⟨fun b _ f hx => ⟨rfl, quantize_lt (b.channel_laws hx).1 f, quantize_eq_div hx⟩, by decide, by decide, by decide⟩

/-- Bucket k begins B / 2 counts below its midpoint and ends less than B − B / 2 counts above it (R140). -/
theorem div_eq_iff_near_mid {x : Channel} (hb : 1 ≤ x.b) (f k : Nat) :
    f / x.b = k ↔ mid x k ≤ f + x.b / 2 ∧ f + x.b / 2 < mid x k + x.b := by
  rw [Nat.div_eq_iff hb, mid]
  omega

/-- Outside a band of at least half a bucket lies another bucket (R143). -/
theorem div_ne_of_far {x : Channel} (hb : 1 ≤ x.b) {f k : Nat} (hH : x.b / 2 ≤ x.h) (hfar : x.h < ((f : Int) - (mid x k : Int)).natAbs) :
    f / x.b ≠ k := by
  intro hk
  have := (div_eq_iff_near_mid hb f k).mp hk
  omega

/-! ### What an update of an enabled channel leaves (R143, R144) -/

/-- The decision of R143 as the claims write it. -/
theorem reports_eq_true_iff (x : Channel) (k f : Nat) :
    reports x k f = true ↔ x.h < ((f : Int) - (k * x.b + x.b / 2 : Nat)).natAbs ∧ min (f / x.b) (x.c - 1) ≠ k :=
  reports_iff x k f

/-- A value in the band of a step is not reported against it (R143). -/
theorem reports_eq_false_of_near {x : Channel} {k f : Nat} (h : ((f : Int) - (k * x.b + x.b / 2 : Nat)).natAbs ≤ x.h) :
    reports x k f = false :=
  Bool.eq_false_iff.mpr fun hr => absurd ((reports_eq_true_iff x k f).mp hr).1 h.not_gt

section

variable {s : State} {ch : BitVec 4} {x : Channel}

/-- The report decision does not write F, so F after an update is F after the filter. -/
theorem State.updateChannel_fAt (hx : s.enabled? ch = some x) (raw : BitVec 16) :
    (s.updateChannel ch raw).fAt ch = (s.filterChannel ch raw).fAt ch := by
  rw [s.updateChannel_on hx]
  obtain ⟨-, e⟩ | ⟨-, e⟩ := (s.filterChannel ch raw).reportChannel_cases x ch <;> rw [e] <;> rfl

/-- An update that reports: F, LS and the response (R143). -/
theorem State.updateChannel_reports (hx : s.enabled? ch = some x) {raw : BitVec 16}
    (hr : reports x (s.lsAt ch).toNat ((s.updateChannel ch raw).fAt ch).toNat = true) :
    let q := BitVec.ofNat 5 (quantize x ((s.updateChannel ch raw).fAt ch).toNat)
    s.updateChannel ch raw = ((s.filterChannel ch raw).writeLs ch q).finishControl (.respond (drWord ch true q)) := by
  rw [State.updateChannel_fAt hx] at hr ⊢
  obtain ⟨-, e⟩ | ⟨hn, -⟩ := (s.filterChannel ch raw).reportChannel_cases x ch
  · exact (s.updateChannel_on hx raw).trans e
  · exact absurd hr (by simpa using hn)

/-- An update that does not report: F and the response "no change" (R143). -/
theorem State.updateChannel_quiet (hx : s.enabled? ch = some x) {raw : BitVec 16}
    (hr : reports x (s.lsAt ch).toNat ((s.updateChannel ch raw).fAt ch).toNat = false) :
    s.updateChannel ch raw = (s.filterChannel ch raw).finishControl (.respond (drWord ch false 0)) := by
  rw [State.updateChannel_fAt hx] at hr
  obtain ⟨hn, -⟩ | ⟨-, e⟩ := (s.filterChannel ch raw).reportChannel_cases x ch
  · exact absurd hr (by simpa using hn)
  · exact (s.updateChannel_on hx raw).trans e

/-- A step of a channel of the build fits the 5 bits of LS (R26). -/
theorem State.quantize_toNat (hx : s.enabled? ch = some x) (f : Nat) : (BitVec.ofNat 5 (quantize x f)).toNat = quantize x f := by
  obtain ⟨hc, hc32, -⟩ := s.build.channel_laws (State.mem_chans_of_channel? (State.enabled?_eq_some.mp hx).1)
  have := quantize_lt hc f
  rw [BitVec.toNat_ofNat]
  exact Nat.mod_eq_of_lt (by omega)

variable (h : s.RegsOk)
include h

/-- What the filter computes of a value in range fits the 16 bits of F (R146). -/
theorem State.RegsOk.ema_lt (hx : s.enabled? ch = some x) (raw : BitVec 16) :
    ema s.build.toParams (s.fAt ch).toNat raw < 2 ^ 16 := by
  have hf := (h.channels ch x (State.enabled?_eq_some.mp hx).1).1
  have hfmax := s.build.fmax_le
  exact (ema_le_fmax s.build raw hf).trans_lt (by omega)

/-- F after an update, as a number (R141). -/
theorem State.RegsOk.updateChannel_fAt (hx : s.enabled? ch = some x) (raw : BitVec 16) :
    ((s.updateChannel ch raw).fAt ch).toNat = ema s.build.toParams (s.fAt ch).toNat raw := by
  have hch : ch.toNat < s.f.length := h.f_length ▸ State.lt_nch_of_channel? (State.enabled?_eq_some.mp hx).1
  rw [State.updateChannel_fAt hx, State.filterChannel, State.writeF_fAt hch, if_pos rfl, BitVec.toNat_ofNat,
    Nat.mod_eq_of_lt (h.ema_lt hx raw)]

/-- F after an update is in 0..FMAX, so the minimum of Q does not act. -/
theorem State.RegsOk.quantize_updateChannel (hx : s.enabled? ch = some x) (raw : BitVec 16) :
    quantize x ((s.updateChannel ch raw).fAt ch).toNat = ((s.updateChannel ch raw).fAt ch).toNat / x.b := by
  obtain ⟨hx', -⟩ := State.enabled?_eq_some.mp hx
  rw [h.updateChannel_fAt hx]
  exact quantize_eq_div (State.mem_chans_of_channel? hx') (ema_le_fmax s.build raw (h.channels ch x hx').1)

/-- LS after an update, as a number: Q(F) on a report (R143). -/
theorem State.RegsOk.updateChannel_lsAt (hx : s.enabled? ch = some x) (raw : BitVec 16) :
    let f := ((s.updateChannel ch raw).fAt ch).toNat
    ((s.updateChannel ch raw).lsAt ch).toNat = if reports x (s.lsAt ch).toNat f then quantize x f else (s.lsAt ch).toNat := by
  have hch : ch.toNat < s.ls.length := h.ls_length ▸ State.lt_nch_of_channel? (State.enabled?_eq_some.mp hx).1
  intro f
  split
  next hr =>
    rw [State.updateChannel_reports hx hr, State.finishControl_lsAt, State.writeLs_lsAt (s := s.filterChannel ch raw) hch, if_pos rfl,
      State.quantize_toNat hx]
  next hr => rw [State.updateChannel_quiet hx (by simpa using hr)]; rfl

/-- Whatever changes LS is a report, and LS is then the step of F (R143, R149). -/
theorem State.RegsOk.report_of_lsAt_ne (hx : s.enabled? ch = some x) {raw : BitVec 16}
    (hne : (s.updateChannel ch raw).lsAt ch ≠ s.lsAt ch) :
    let f := ((s.updateChannel ch raw).fAt ch).toNat
    ((s.updateChannel ch raw).lsAt ch).toNat = quantize x f ∧
      x.h < ((f : Int) - (mid x (s.lsAt ch).toNat : Int)).natAbs := by
  intro f
  have hls := h.updateChannel_lsAt hx raw
  by_cases hr : reports x (s.lsAt ch).toNat f = true
  · exact ⟨hls.trans (if_pos hr), ((reports_iff ..).mp hr).1⟩
  · exact absurd (BitVec.eq_of_toNat_eq (hls.trans (if_neg hr))) hne

end

/-- Settles O40: F in range leaves no overflow, so F after the update is what the filter computes. -/
theorem filterUpdate : Obligations.FilterUpdate := by
  refine ⟨fun ch raw s x h hx hen => ⟨_, exec_denoiseUpdate ch raw s, ?_⟩, by decide, by decide⟩
  exact h.updateChannel_fAt (State.enabled?_eq_some.mpr ⟨hx, hen⟩) raw

/-- Settles O44: the two ends of an update. A margin of at least floor(B / 2) leaves no value of bucket LS out of the band. -/
theorem reportDecision : Obligations.ReportDecision := by
  intro ch raw s x h hx hen
  have hon := State.enabled?_eq_some.mpr ⟨hx, hen⟩
  refine ⟨_, exec_denoiseUpdate ch raw s, ?_⟩
  intro f k q
  have hls := h.updateChannel_lsAt hon raw
  refine ⟨fun hr => ?_, fun hr => ?_, fun hH hfar => ?_⟩
  · have hr : reports x k f = true := (reports_eq_true_iff x k f).mpr hr
    exact ⟨hls.trans (if_pos hr), congrArg State.out (State.updateChannel_reports hon hr)⟩
  · have hr : ¬ reports x k f = true := mt (reports_eq_true_iff x k f).mp hr
    exact ⟨BitVec.eq_of_toNat_eq (hls.trans (if_neg hr)),
      congrArg State.out (State.updateChannel_quiet hon (Bool.eq_false_iff.mpr hr))⟩
  · have hb := s.build.one_le_width (State.mem_chans_of_channel? hx)
    exact fun hq => div_ne_of_far hb hH hfar ((h.quantize_updateChannel hon raw).symm.trans hq)

/-- Settles O45: an update of a channel that is off, then the two ends of one that is on. -/
theorem denoiseUpdateEffect : Obligations.DenoiseUpdateEffect := by
  intro ch raw s h answer
  refine ⟨fun hoff => ?_, fun x hx hen => ?_⟩
  · exact congrArg _ (s.updateChannel_off (State.enabled?_eq_none.mpr hoff) raw)
  · intro f k q fs
    have hon := State.enabled?_eq_some.mpr ⟨hx, hen⟩
    have hf : ((s.updateChannel ch raw).fAt ch).toNat = f := h.updateChannel_fAt hon raw
    have hq : (BitVec.ofNat 5 q).toNat = q := State.quantize_toNat hon f
    refine ⟨h.ema_lt hon raw, hq ▸ BitVec.isLt _, ?_⟩
    rw [exec_denoiseUpdate]
    split
    next hr =>
      have hr := hf ▸ (reports_eq_true_iff x k f).mpr hr
      rw [State.updateChannel_reports hon hr, hf]
      rfl
    next hr =>
      have hr := hf ▸ Bool.eq_false_iff.mpr (mt (reports_eq_true_iff x k f).mp hr)
      rw [State.updateChannel_quiet hon hr]
      rfl

/-! ### POLL_TICK (R145) -/

/-- An update neither reads nor writes RR. -/
theorem State.updateChannel_withRr (s : State) (rr : BitVec 4) (ch : BitVec 4) (raw : BitVec 16) :
    { s with rr := rr }.updateChannel ch raw = { s.updateChannel ch raw with rr := rr } := by
  cases hx : s.enabled? ch with
  | none => rw [s.updateChannel_off hx, State.updateChannel_off (s := { s with rr := rr }) hx]; rfl
  | some x =>
    rw [s.updateChannel_on hx, State.updateChannel_on (s := { s with rr := rr }) hx]
    obtain ⟨hr, e⟩ | ⟨hr, e⟩ := (s.filterChannel ch raw).reportChannel_cases x ch
    · rw [e]; exact if_pos hr
    · rw [e]; exact if_neg (Bool.eq_false_iff.mp hr)

/-- Settles O46: a tick is an update of the channel RR named, with RR stepped round before it. -/
theorem pollTickEffect : Obligations.PollTickEffect := by
  intro raw s
  refine ⟨_, _, exec_pollTick raw s, exec_denoiseUpdate s.rr raw s, ?_⟩
  rw [s.updateChannel_withRr]
  exact ⟨s.nextRr_toNat, rfl⟩

/-! ### Sequences of updates (R148, R149) -/

/-- Settles O48: by induction on the raw values, each update stays in the band of the same LS and so does not report. -/
theorem quietInsideTheBand : Obligations.QuietInsideTheBand := by
  intro ch s x raws hx hen hband
  have hon := State.enabled?_eq_some.mpr ⟨hx, hen⟩
  clear hx hen
  induction raws generalizing s with
  | nil => simp
  | cons raw raws ih =>
    rw [filteredRun_cons, List.forall_mem_cons] at hband
    obtain ⟨hnear, hband⟩ := hband
    have hquiet := State.updateChannel_quiet hon (reports_eq_false_of_near hnear)
    rw [hquiet] at hband
    obtain ⟨hls, hout⟩ := ih _ hband hon
    rw [runUpdates_cons, hquiet, hls, hout]
    refine ⟨rfl, ?_⟩
    rw [List.length_cons, List.replicate_succ, State.finishControl_out, State.filterChannel_out, List.append_assoc]
    rfl

/-- An update changes neither the build nor, with it, the channels that are on. -/
theorem State.updateChannel_enabled? (s : State) (ch : BitVec 4) (raw : BitVec 16) (c : BitVec 4) :
    (s.updateChannel ch raw).enabled? c = s.enabled? c := by
  obtain ⟨f, ls, rep, q, e⟩ := s.updateChannel_cases ch raw
  rw [e]
  rfl

/-- A report of a higher step has F above the band of LS, one of a lower step has F below it (R149): the bucket of F, and so F itself, lies
on that side of mid(LS). -/
theorem State.RegsOk.report_beyond_band {s : State} {ch : BitVec 4} {x : Channel} (h : s.RegsOk) (hx : s.enabled? ch = some x)
    (raw : BitVec 16) :
    let f := ((s.updateChannel ch raw).fAt ch).toNat
    let k := (s.lsAt ch).toNat
    let k' := ((s.updateChannel ch raw).lsAt ch).toNat
    (k < k' → mid x k + x.h + 1 ≤ f) ∧ (k' < k → f + x.h + 1 ≤ mid x k) := by
  intro f k k'
  have hb := s.build.one_le_width (State.mem_chans_of_channel? (State.enabled?_eq_some.mp hx).1)
  have report (hne : k' ≠ k) : k' = f / x.b ∧ x.h < ((f : Int) - (mid x k : Int)).natAbs := by
    obtain ⟨hk', hfar⟩ := h.report_of_lsAt_ne hx fun e => hne (congrArg BitVec.toNat e)
    exact ⟨hk'.trans (h.quantize_updateChannel hx raw), hfar⟩
  refine ⟨fun hlt => ?_, fun hlt => ?_⟩
  · obtain ⟨hk', hfar⟩ := report hlt.ne'
    have habove : (k + 1) * x.b ≤ f := (Nat.le_div_iff_mul_le hb).mp (hk' ▸ hlt)
    rw [Nat.succ_mul] at habove
    rw [mid] at hfar ⊢
    omega
  · obtain ⟨hk', hfar⟩ := report hlt.ne
    have hbelow : f < k * x.b := (Nat.div_lt_iff_lt_mul hb).mp (hk' ▸ hlt)
    rw [mid] at hfar ⊢
    omega

/-- Settles O49: the two thresholds are mid(k) + H + 1 and mid(k + 1) − H − 1, and the midpoints lie B apart. -/
theorem alternatingReportsNeedSpread : Obligations.AlternatingReportsNeedSpread := by
  intro ch raw raw' s t s' t' x h h' hbuild hx hen ht ht'
  have hon := State.enabled?_eq_some.mpr ⟨hx, hen⟩
  have hon' : s'.enabled? ch = some x := by rw [← hon, State.enabled?, State.enabled?, State.channel?, State.channel?, hbuild]
  cases ht
  cases ht'
  obtain ⟨habove, -⟩ := h.report_beyond_band hon raw
  obtain ⟨-, hbelow⟩ := h'.report_beyond_band hon' raw'
  refine ⟨fun hne => (h.report_of_lsAt_ne hon hne).1, fun e => habove (by omega), fun e => hbelow (by omega), fun e e₁ e₂ => ?_⟩
  have hup := habove (by omega)
  have hdown := hbelow (by rw [e₁, e₂]; omega)
  rw [e₁, e, mid, Nat.succ_mul] at hdown
  rw [mid] at hup
  omega

/-- The reported steps are, in order, steps of some of the filtered values. -/
theorem reportedRun_sublist {s : State} {ch : BitVec 4} {x : Channel} (h : s.RegsOk) (hx : s.enabled? ch = some x)
    (raws : List (BitVec 16)) : (reportedRun ch s raws).Sublist ((filteredRun ch s raws).map (quantize x)) := by
  induction raws generalizing s with
  | nil => exact .slnil
  | cons raw raws ih =>
    have hrest := ih (h.updateChannel ch raw) (s.updateChannel_enabled? ch raw ch ▸ hx)
    rw [reportedRun_cons, filteredRun_cons, List.map_cons]
    split
    · exact hrest.cons _
    next hne =>
      rw [(h.report_of_lsAt_ne hx hne).1]
      exact hrest.cons_cons _

/-- Each reported step differs from the one before it, the first from LS. -/
theorem reportedRun_isChain_ne (ch : BitVec 4) (s : State) (raws : List (BitVec 16)) :
    ((s.lsAt ch).toNat :: reportedRun ch s raws).IsChain (· ≠ ·) := by
  induction raws generalizing s with
  | nil => exact .singleton _
  | cons raw raws ih =>
    have hrest := ih (s.updateChannel ch raw)
    rw [reportedRun_cons]
    split
    next heq => rwa [heq] at hrest
    next hne => exact .cons_cons (fun e => hne (BitVec.eq_of_toNat_eq e.symm)) hrest

/-- A list in the order R whose neighbours differ is strictly ordered by S, if S is R without equality. -/
theorem pairwise_of_isChain_ne {R S : Nat → Nat → Prop} [Trans S S S] (hRS : ∀ a b, R a b → a ≠ b → S a b) {l : List Nat}
    (hR : l.Pairwise R) (hne : l.IsChain (· ≠ ·)) : l.Pairwise S :=
  (List.isChain_iff_getElem.mpr fun i hi => hRS _ _ (hR.isChain.getElem i hi) (hne.getElem i hi)).pairwise

/-- Settles O50: the reported steps keep the order of the filtered values, since Q does, and neighbours among them differ. -/
theorem monotoneMovementReportsOnce : Obligations.MonotoneMovementReportsOnce := by
  intro ch s x raws h hx hen
  have hsub := reportedRun_sublist h (State.enabled?_eq_some.mpr ⟨hx, hen⟩) raws
  have hne := (reportedRun_isChain_ne ch s raws).tail
  refine ⟨fun hrise => ?_, fun hfall => ?_⟩
  · have hle : (reportedRun ch s raws).Pairwise (· ≤ ·) := (hrise.map (quantize x) fun _ _ => quantize_mono x).sublist hsub
    exact pairwise_of_isChain_ne (fun _ _ => Nat.lt_of_le_of_ne) hle hne
  · have hge : (reportedRun ch s raws).Pairwise (· ≥ ·) :=
      (hfall.map (S := (· ≥ ·)) (quantize x) fun _ _ => quantize_mono x).sublist hsub
    exact pairwise_of_isChain_ne (fun _ _ hab hne => Nat.lt_of_le_of_ne hab hne.symm) hge hne

end Sys2Proof.Machine
end

section
/-! SUPPORT. The statements about the system commands (42_system.md): the ignored words, NOP, the response words of READ_STATUS and
READ_CHANNEL as numbers, and RESET. -/

namespace Sys2Proof.Machine

/-! ### Ignored words (R174) -/

/-- Settles O13: on the control port an ignored word releases nothing, on the audio port the blocks presented with it. -/
theorem ignoredWordsChangeNothing : Obligations.IgnoredWordsChangeNothing := by
  intro s s' p w hf hignored
  have hregs := State.fetch_sameRegs hf
  rw [step_ignore hf hignored, ← (State.fetch_out hf).1, ← (State.fetch_out hf).2]
  cases p with
  | control => exact ⟨[], List.nodup_nil, by simp, rfl, hregs⟩
  | audio => exact ⟨blockNames s'.lane, blockNames_nodup s'.lane, by simp [mem_blockNames], rfl, hregs⟩

/-! ### NOP (R170) -/

theorem exec_nop (s : State) : exec .nop s = .next (s.finishControl .done) := rfl

/-- Settles O53: NOP only ends, on the control port. -/
theorem nopEffect : Obligations.NopEffect := exec_nop

/-! ### READ_STATUS and READ_CHANNEL (R171, R172) -/

/-- The fields of a word as digits of its number. -/
theorem toNat_extractLsb' (w : Word) (lo k : Nat) : (w.extractLsb' lo k).toNat = w.toNat / 2 ^ lo % 2 ^ k := by
  rw [BitVec.extractLsb'_toNat, Nat.shiftRight_eq_div_pow]

theorem toNat_getLsbD (w : Word) (i : Nat) : (w.getLsbD i).toNat = w.toNat / 2 ^ i % 2 :=
  Nat.toNat_testBit w.toNat i

/-- A field that reads 0 is a 0 digit of the number. -/
theorem digit_eq_zero_of_extractLsb' {w : Word} {lo k : Nat} (h : w.extractLsb' lo k = 0) : w.toNat / 2 ^ lo % 2 ^ k = 0 := by
  rw [← toNat_extractLsb', h, BitVec.ofNat_eq_ofNat, BitVec.toNat_zero]

/-- The status word as a number: the fields of its layout (O7) make up all its 32 bits (R81). -/
theorem srWord_toNat (mc : BitVec 16) (idx : BitVec 12) (mute key : Bool) :
    (srWord mc idx mute key).toNat = mc.toNat * 2 ^ 16 + idx.toNat * 2 ^ 4 + mute.toNat * 2 + key.toNat := by
  obtain ⟨-, hlayout, -⟩ := responseLayouts
  obtain ⟨hmc, hidx, hzero, hmute, hkey⟩ := hlayout mc idx mute key
  generalize srWord mc idx mute key = w at *
  subst hmc hidx hmute hkey
  simp only [toNat_extractLsb', toNat_getLsbD]
  have := digit_eq_zero_of_extractLsb' hzero
  omega

/-- The channel word as a number, likewise (R81). -/
theorem crWord_toNat (ch : BitVec 4) (en : Bool) (ls : BitVec 5) (f : BitVec 16) :
    (crWord ch en ls f).toNat = ch.toNat * 2 ^ 28 + en.toNat * 2 ^ 24 + ls.toNat * 2 ^ 16 + f.toNat := by
  obtain ⟨-, -, hlayout⟩ := responseLayouts
  obtain ⟨hch, hzero, hen, hzero', hls, hf⟩ := hlayout ch en ls f
  generalize crWord ch en ls f = w at *
  subst hch hen hls hf
  simp only [toNat_extractLsb', toNat_getLsbD]
  have := digit_eq_zero_of_extractLsb' hzero
  have := digit_eq_zero_of_extractLsb' hzero'
  omega

theorem exec_readStatus (s : State) :
    exec .readStatus s = .next (s.finishControl (.respond (srWord s.mc s.idx s.mute s.key))) := rfl

/-- Settles O54: the response is the status word, and the word is the number of its fields. -/
theorem readStatusEffect : Obligations.ReadStatusEffect :=
  fun s => ⟨_, exec_readStatus s, srWord_toNat s.mc s.idx s.mute s.key⟩

theorem State.channelWord_absent {s : State} {ch : BitVec 4} (h : s.build.nch ≤ ch.toNat) :
    s.channelWord ch = crWord ch false 0 0 := by
  rw [State.channelWord, State.channel?_eq_none.mpr h]

theorem State.channelWord_present {s : State} {ch : BitVec 4} {x : Channel} (h : s.channel? ch = some x) :
    s.channelWord ch = crWord ch x.en (s.lsAt ch) (s.fAt ch) := by
  rw [State.channelWord, h]

/-- With EN, LS and F at 0 the channel word names the channel only. -/
theorem crWord_zero_toNat (ch : BitVec 4) : (crWord ch false 0 0).toNat = ch.toNat * 2 ^ 28 := by
  simp [crWord_toNat]

/-- Settles O55: the channel word in its two cases; the ranges keep F and LS of a disabled channel at 0. -/
theorem readChannelEffect : Obligations.ReadChannelEffect := by
  intro ch s
  refine ⟨_, exec_readChannel ch s, fun habsent => ?_, fun x hx => ?_, fun x hregs hx hoff => ?_⟩
  · rw [State.channelWord_absent habsent, crWord_zero_toNat]
  · rw [State.channelWord_present hx, crWord_toNat]
  · obtain ⟨-, -, hreset⟩ := hregs.channels ch x hx
    obtain ⟨hf, hls⟩ := hreset hoff
    rw [State.channelWord_present hx, hoff, hf, hls, crWord_zero_toNat]

/-! ### RESET (R173) -/

theorem exec_reset (s : State) : exec .reset s = .next (s.clearRegisters.finishControl .done) := rfl

/-- Settles O56: RESET clears the registers and ends on the control port. -/
theorem resetEffect : Obligations.ResetEffect :=
  fun s => ⟨_, exec_reset s, rfl, rfl, rfl, rfl, rfl, rfl, rfl, rfl, rfl⟩

/-- Settles O57: no instruction takes a word from a port, and clearing the registers leaves the lane. -/
theorem resetLeavesThePorts : Obligations.ResetLeavesThePorts :=
  fun s => ⟨_, exec_reset s, exec_sameQueues (exec_reset s), rfl⟩

end Sys2Proof.Machine
end

section
/-! SUPPORT. The statements about the end of a command (60_exceptions.md): no exception exists, a block with no command waiting waits, and a
channel that is off answers before the raw value is looked at. -/

namespace Sys2Proof.Machine

/-! ### How a command ends (R190) -/

/-- An instruction of the control port ends in `done` or `respond`. -/
theorem exec_control_ends {i : Instr} {s : State} (hp : i.port = .control) :
    ∃ (t : State) (e : Event), exec i s = .next t ∧ t.out = s.out ++ [e] ∧ e.port = .control ∧
      (e.reply = .done ∨ ∃ v, e.reply = .respond v) := by
  obtain ⟨t, he⟩ := exec_next i s
  cases i with
  | nop | setKey | setMute | reset => cases he; exact ⟨_, _, rfl, rfl, rfl, .inl rfl⟩
  | readStatus | readChannel => cases he; exact ⟨_, _, rfl, rfl, rfl, .inr ⟨_, rfl⟩⟩
  | denoiseUpdate => obtain ⟨_, _, _, _, rfl⟩ := exec_denoiseUpdate_cases he; exact ⟨_, _, he, rfl, rfl, .inr ⟨_, rfl⟩⟩
  | pollTick => obtain ⟨_, _, _, _, rfl⟩ := exec_pollTick_cases he; exact ⟨_, _, he, rfl, rfl, .inr ⟨_, rfl⟩⟩
  | mixCycle => cases hp

/-- An instruction of the audio port ends in `skip`, or in `emit` with two blocks of L samples, on the tone path and on the pass-through
path alike (R103). -/
theorem exec_audio_ends {i : Instr} {s : State} (hp : i.port = .audio) :
    ∃ (t : State) (e : Event), exec i s = .next t ∧ t.out = s.out ++ [e] ∧ e.port = .audio ∧
      (e.reply = .skip ∨ ∃ a b, e.reply = .emit a b ∧ a.length = s.build.blockLen ∧ b.length = s.build.blockLen) := by
  cases i with
  | mixCycle t l r =>
    cases t with
    | false => exact ⟨_, _, exec_mixCycle_skip l r s, rfl, rfl, .inl rfl⟩
    | true =>
      cases htx : s.isTx with
      | true =>
        exact ⟨_, _, exec_mixCycle_tone l r s htx, rfl, rfl, .inr ⟨_, _, rfl, s.toneOut_length, s.toneOut_length⟩⟩
      | false =>
        exact ⟨_, _, exec_mixCycle_pass l r s htx, rfl, rfl, .inr ⟨_, _, rfl, s.passOut_length l .inl, s.passOut_length r .inr⟩⟩
  | _ => cases hp

/-- Settles O16: a word of its own port ends as its instruction does, any other is ignored. -/
theorem everyCommandEndsOnce : Obligations.EveryCommandEndsOnce := by
  intro s s' p w hf
  by_cases hrun : ∃ i, decode w = .ok i ∧ i.port = p
  · obtain ⟨i, hd, hp⟩ := hrun
    obtain ⟨hbuild, -⟩ := State.fetch_sameRegs hf
    rw [step_exec hf hd hp, ← (State.fetch_out hf).1, ← hbuild]
    cases p with
    | control =>
      obtain ⟨t, e, he, hout, hport, hends⟩ := exec_control_ends (s := s') hp
      exact ⟨t, e, he, hout, hport, .inr hends⟩
    | audio =>
      obtain ⟨t, e, he, hout, hport, hends⟩ := exec_audio_ends (s := s') hp
      exact ⟨t, e, he, hout, hport, .inr hends⟩
  · obtain ⟨t, released, hstep, -, hout⟩ := step_ignored hf fun i hd hp => hrun ⟨i, hd, hp⟩
    refine ⟨t, _, hstep, hout, rfl, ?_⟩
    cases p <;> exact .inl rfl

/-! ### With no word waiting the block waits (R57, R200) -/

/-- Settles O11: with both queues empty there is nothing to fetch. -/
theorem idleBlockWaits : Obligations.IdleBlockWaits :=
  fun _ hctl haud => step_of_fetch_none (State.fetch_eq_none.mpr ⟨hctl, haud⟩)

/-! ### An absent or disabled channel (R193) -/

/-- Settles O52: a channel that is off takes the branch that has no raw value in it; stepping RR round leaves the channel off. -/
theorem absentChannelNeverLooksAtRaw : Obligations.AbsentChannelNeverLooksAtRaw := by
  intro ch raw raw' s hoff
  refine ⟨?_, ?_⟩
  · rw [exec_denoiseUpdate, exec_denoiseUpdate, s.updateChannel_off hoff, s.updateChannel_off hoff]
  · rintro rfl
    rw [exec_pollTick, State.updateChannel_off (s := { s with rr := s.nextRr }) hoff]
    rfl

end Sys2Proof.Machine
end

section
/-! SUPPORT. The statements about reset and the hazards (70_reset_and_hazards.md): what the registers hold after reset, the parameters of the
build, the first commands after RESET, and the cycles that are skipped or presented as the host owes them. -/

namespace Sys2Proof.Machine

/-! ### The parameters of the build (R212) -/

/-- No instruction writes the build, not even RESET (R31, R173). -/
theorem exec_build {i : Instr} {s t : State} (he : exec i s = .next t) : t.build = s.build := by
  cases i with
  | mixCycle => obtain ⟨_, _, _, rfl, -⟩ := exec_mixCycle_cases he; rfl
  | denoiseUpdate => obtain ⟨_, _, _, _, rfl⟩ := exec_denoiseUpdate_cases he; rfl
  | pollTick => obtain ⟨_, _, _, _, rfl⟩ := exec_pollTick_cases he; rfl
  | _ => cases he; rfl

/-- Settles O18: neither a fetch nor an ignored word nor an instruction writes the build. -/
theorem buildNeverChanges : Obligations.BuildNeverChanges := by
  intro s t hstep
  obtain ⟨-, rfl⟩ | ⟨p, w, s', hf, -, rfl⟩ | ⟨p, w, s', i, hf, -, -, he⟩ := step_cases hstep
  · rfl
  · exact ((State.fetch_sameRegs hf).trans (s'.ignoreWord_sameRegs p)).1
  · exact (exec_build he).trans (State.fetch_sameRegs hf).1

/-! ### The reset values (R210) -/

/-- Settles O21: clearing the registers changes nothing in a power-on state, and cleared registers are in range. -/
theorem powerOnMeetsInvariant : Obligations.PowerOnMeetsInvariant :=
  have inv (b : Build) : (State.powerOn b).Inv := ⟨(State.powerOn b).clearRegisters_regsOk, rfl⟩
  ⟨inv, inv Build.standard⟩

/-- Settles O22: RESET clears the registers to what power-on gives the same build; after power-on no word waits. -/
theorem resetValues : Obligations.ResetValues := by
  intro b s
  refine ⟨rfl, rfl, rfl, rfl, rfl, rfl, rfl, ?_, idleBlockWaits s rfl rfl⟩
  rintro s₀ rfl
  exact ⟨_, exec_reset s₀, rfl, rfl, rfl, rfl, rfl, rfl, rfl, rfl⟩

/-! ### The first commands after RESET (R213) -/

@[simp] theorem State.clearRegisters_fAt (s : State) (ch : BitVec 4) : s.clearRegisters.fAt ch = 0 :=
  List.getElem?_getD_replicate_default_eq ..

@[simp] theorem State.clearRegisters_lsAt (s : State) (ch : BitVec 4) : s.clearRegisters.lsAt ch = 0 :=
  List.getElem?_getD_replicate_default_eq ..

/-- With the gate open a block of L samples passes unmodified (R103). -/
theorem State.passOut_of_get {s : State} {n : BlockName} {xs : List Sample} (hopen : s.gated = false)
    (hget : s.lane.get n = some xs) (hlen : xs.length = s.build.blockLen) : s.passOut true n = xs := by
  rw [s.passOut_eq, hopen]
  exact State.samples_of_get hget hlen

/-- A cycle on the RX path with the gate open hands on both input blocks (R103). -/
theorem exec_mixCycle_passesOn {s : State} {xs ys : List Sample} (hrx : s.isTx = false) (hopen : s.gated = false)
    (hinl : s.lane.get .inl = some xs) (hinr : s.lane.get .inr = some ys)
    (hxs : xs.length = s.build.blockLen) (hys : ys.length = s.build.blockLen) :
    ∃ t released, exec (.mixCycle true true true) s = .next t ∧ t.out = s.out ++ [⟨.audio, .emit xs ys, released⟩] := by
  refine ⟨_, releases true true true s.lane, exec_mixCycle_pass true true s hrx, ?_⟩
  rw [State.passOut_of_get hopen hinl hxs, State.passOut_of_get hopen hinr hys]
  rfl

/-- From 0 the filter gives the clamped raw value (R141). -/
theorem ema_zero (p : Params) (raw : BitVec 16) : ema p 0 raw = clampRaw p raw := by
  simp [ema]

theorem mid_zero (x : Channel) : mid x 0 = x.b / 2 := by
  simp [mid]

/-- The rep bit of a denoiser response (R81). -/
theorem drWord_rep (ch : BitVec 4) (rep : Bool) (step : BitVec 5) : (drWord ch rep step).getLsbD 8 = rep := by
  obtain ⟨hlayout, -⟩ := responseLayouts
  obtain ⟨-, -, -, hrep, -⟩ := hlayout ch rep step
  exact hrep

/-- An update of an enabled channel answers with the report decision on LS and the new F as its rep bit (R143). -/
theorem State.updateChannel_out {s : State} {ch : BitVec 4} {x : Channel} (hx : s.enabled? ch = some x) (raw : BitVec 16) :
    ∃ q, (s.updateChannel ch raw).out = s.out ++ [⟨.control, .respond
      (drWord ch (reports x (s.lsAt ch).toNat ((s.updateChannel ch raw).fAt ch).toNat) q), []⟩] := by
  cases hr : reports x (s.lsAt ch).toNat ((s.updateChannel ch raw).fAt ch).toNat with
  | true => exact ⟨_, congrArg State.out (State.updateChannel_reports hx hr)⟩
  | false => exact ⟨_, congrArg State.out (State.updateChannel_quiet hx hr)⟩

/-- Settles O58: after RESET the cycle takes the RX path with the gate open, and the update starts from F = 0 and LS = 0. -/
theorem firstCommandsAfterReset : Obligations.FirstCommandsAfterReset := by
  intro s s₀ hreset
  cases hreset
  refine ⟨fun blocks _ _ => exec_mixCycle_passesOn (s := { s₀.clearRegisters.finishControl .done with lane := blocks }) rfl rfl,
    fun ch raw x hx hen => ?_⟩
  have hon := State.enabled?_eq_some.mpr ⟨hx, hen⟩
  have hregs := s₀.clearRegisters_regsOk.finishControl .done
  obtain ⟨q, hout⟩ := State.updateChannel_out hon raw
  refine ⟨_, _, exec_denoiseUpdate .., hout, ?_, ?_⟩
  · rw [hregs.updateChannel_fAt hon, State.finishControl_fAt, State.clearRegisters_fAt]
    exact ema_zero ..
  · rw [drWord_rep, reports_iff, State.finishControl_lsAt, State.clearRegisters_lsAt]
    simp only [BitVec.ofNat_eq_ofNat, BitVec.toNat_zero, mid_zero]

/-! ### Skipped cycles (R217) -/

/-- A cycle with KEY as it stands changes no register by entering. -/
theorem Cycle.enter_sameRegs {c : Cycle} {s : State} (hkey : c.key = s.key) : s.SameRegs (c.enter s) :=
  ⟨rfl, hkey, rfl, rfl, rfl, rfl, rfl, rfl⟩

/-- Settles O33: by induction on the cycles; a skipped one changes no register, so the next one finds KEY as it was. -/
theorem skippedCyclesFreezeState : Obligations.SkippedCyclesFreezeState := by
  intro s cs
  induction cs generalizing s with
  | nil => exact fun _ => State.SameRegs.refl s
  | cons c cs ih =>
    intro h
    obtain ⟨⟨hskip, hkey⟩, hcs⟩ := List.forall_mem_cons.mp h
    have hrun : s.SameRegs (c.run s) := (Cycle.enter_sameRegs hkey).trans (c.run_of_skip hskip s)
    have ⟨_, hkept, _⟩ := hrun
    exact hrun.trans (ih _ (hkept ▸ hcs))

/-! ### A cycle presented as the host owes it (R214, R215) -/

theorem BlockName.mem_all (n : BlockName) : n ∈ BlockName.all := by
  cases n <;> decide

/-- What the host owes: each block the word marks is presented, with L samples. -/
theorem block_of_wellFormed {p : Params} {port : Port} {blocks : Blocks} {i : Instr} {n : BlockName}
    (h : i.wellFormed p port blocks = true) (hmarks : i.marks n = true) :
    ∃ xs, blocks.get n = some xs ∧ xs.length = p.blockLen := by
  simp only [Instr.wellFormed, Instr.marksMatch, Blocks.fit, Bool.and_eq_true, List.all_eq_true] at h
  obtain ⟨⟨⟨-, hmatch⟩, hfit⟩, -⟩ := h
  have hhas : blocks.has n = true := (beq_iff_eq.mp (hmatch n (BlockName.mem_all n))).symm.trans hmarks
  obtain ⟨xs, hxs⟩ := Option.isSome_iff_exists.mp hhas
  have hlen := hfit n (BlockName.mem_all n)
  rw [hxs] at hlen
  exact ⟨xs, hxs, of_decide_eq_true hlen⟩

section
variable {t l r : Bool} {s : State} (h : (Instr.mixCycle t l r).wellFormed s.build.toParams .audio s.lane = true)
include h

/-- A marked block is read with no free value, so its samples are the same for every draw. -/
theorem State.samples_withHistory {n : BlockName} (hmarks : (Instr.mixCycle t l r).marks n = true) (d : Nat) (o : List Event) :
    { s with draws := d, out := o : State }.samples n = s.samples n := by
  obtain ⟨xs, hget, hlen⟩ := block_of_wellFormed h hmarks
  rw [State.samples_of_get hget hlen]
  exact State.samples_of_get hget hlen

/-- So is what a pass-through channel emits, present or silent (R103). -/
theorem State.passOut_withHistory {n : BlockName} {present : Bool} (hmarks : (Instr.mixCycle t l r).marks n = present)
    (d : Nat) (o : List Event) :
    { s with draws := d, out := o : State }.passOut present n = s.passOut present n := by
  cases present with
  | false => rfl
  | true =>
    rw [State.passOut_eq, State.samples_withHistory h hmarks]
    rfl

/-- The cycle does the same whatever was drawn and handed out before it: one outcome, and one state but for that history. -/
theorem exec_mixCycle_withHistory : ∃ (s' : State) (e : Event), ∀ (d : Nat) (o : List Event),
    exec (.mixCycle t l r) { s with draws := d, out := o } = .next { s' with draws := d + 1, out := o ++ [e] } := by
  cases t with
  | false =>
    exact ⟨{ s with lane := Blocks.none }, ⟨.audio, .skip, releases false l r s.lane⟩, fun d o => exec_mixCycle_skip ..⟩
  | true =>
    cases htx : s.isTx with
    | true =>
      refine ⟨{ s with mc := s.nextMc, idx := BitVec.ofNat 12 s.toneOut.2, lane := Blocks.none },
        ⟨.audio, .emit s.toneOut.1 s.toneOut.1, releases true l r s.lane⟩, fun d o => ?_⟩
      have htone : { s with draws := d, out := o : State }.toneOut = s.toneOut :=
        congrArg (envBlock _ _ _) (State.samples_withHistory h rfl d o)
      rw [exec_mixCycle_tone l r { s with draws := d, out := o } htx, htone]
      rfl
    | false =>
      refine ⟨{ s with mc := s.nextMc, idx := 0, lane := Blocks.none },
        ⟨.audio, .emit (s.passOut l .inl) (s.passOut r .inr), releases true l r s.lane⟩, fun d o => ?_⟩
      rw [exec_mixCycle_pass l r { s with draws := d, out := o } htx, State.passOut_withHistory h (present := l) rfl,
        State.passOut_withHistory h (present := r) rfl]
      rfl

end

/-- Settles O39: two counts of draws are two histories of one cycle. -/
theorem wellFormedCycleDrawsNothing : Obligations.WellFormedCycleDrawsNothing := by
  intro t l r s d h
  obtain ⟨s', e, hexec⟩ := exec_mixCycle_withHistory h
  exact ⟨_, _, e, hexec s.draws s.out, hexec d s.out, State.SameRegs.refl s', rfl, rfl⟩

/-- Settles O37: the later writes leave the same flags with and without the pulse; the earlier ones are history only. -/
theorem flagPulseIsNotSeen : Obligations.FlagPulseIsNotSeen := by
  intro t l r v v' k k' s s₁ s₂ s₃ s₄ q₁ q₂ blocks h h₁ h₂ h₃ h₄ hq₁ hq₂
  cases h₁; cases h₂; cases h₃; cases h₄; cases hq₁; cases hq₂
  obtain ⟨s', e, hexec⟩ := exec_mixCycle_withHistory (s := { s with key := v', mute := k', lane := blocks }) h
  exact ⟨_, _, e, hexec _ _, hexec _ _, State.SameRegs.refl s', rfl, rfl⟩

end Sys2Proof.Machine
end
